-- ==== Sys2Proof/Word.lean ====
section
/-! DEFINITION. The two word types of CC20 (spec 00_scope.md R11): the 32-bit word and the byte.
Every value is unsigned. The addition `+32` of R12 is `+` on `Word`, and `^` is `^^^`. -/

namespace Sys2Proof

/-- u32 of R11. -/
abbrev Word := BitVec 32

/-- u8 of R11. -/
abbrev Byte := BitVec 8

end Sys2Proof
end

