-- ==== Sys2Proof/Config.lean ====
section
/-! DEFINITION. What is fixed for a CC20 instance: the sizes of spec 00_scope.md R6 and R7, and the
platform parameters of R8. The spec leaves no value undefined, so there is no free value here. -/

namespace Sys2Proof

/-- KEY is 8 words (R6). -/
abbrev Config.keyWords : Nat := 8

/-- NC is 4 words (R6). -/
abbrev Config.ncWords : Nat := 4

/-- The state, and so each of S, X and KS, is 16 words (R6). -/
abbrev Config.stateWords : Nat := 16

/-- BLOCK_BYTES (R6). -/
abbrev Config.blockBytes : Nat := 64

/-- ROUNDS (R6). -/
abbrev Config.rounds : Nat := 20

/-- CTR_OFF (R7). -/
abbrev Config.ctrOff : Nat := 0

/-- CTR_LEN (R7). -/
abbrev Config.ctrLen : Nat := 4

/-- The size of the register window in bytes (spec 10_state.md R27). -/
abbrev Config.windowBytes : Nat := 256

/-- The OPEN parameters a model takes as arguments (R8, spec 92_eei_decisions.md): the width of a
memory-port address and the platform address of the register window. They are carried by the state
and no step changes them (log 3, 4). -/
structure Platform where
  /-- P_ADDR_W. -/
  addrW : Nat
  /-- P_REG_BASE. -/
  regBase : Nat
deriving DecidableEq, Repr

/-- P_ADDR_W = 32 is the spec's default (R8). P_REG_BASE is OPEN: 0 is a DESIGN CHOICE (log 4), unsafe
only for a statement about the absolute addresses of `State.reset`. -/
def Platform.default : Platform := { addrW := 32, regBase := 0 }

end Sys2Proof
end

