-- ==== Sys2Proof/Syntax.lean ====
section
/-! DEFINITION. The CC20 command set, spec revision 1 (spec 30_encoding.md R83): one constructor per
row of spec/opcode_table.json. A command word carries no operand (R82). -/

namespace Sys2Proof

/-- A command of CC20. -/
inductive Instr where
  /-- BLOCK (41_block_function.md R128). -/
  | block
  /-- XOR (43_stream_xor.md R166). -/
  | xor
  /-- KSTREAM (43_stream_xor.md R167). -/
  | kstream
  /-- CTRINC (42_counter.md R145). -/
  | ctrinc
deriving DecidableEq, Repr

end Sys2Proof
end

