-- ==== Sys2Proof/WellFormed.lean ====
section
/-! DEFINITION. What a command word, a command and a platform must satisfy to be well formed. -/

namespace Sys2Proof

/-- A legal command word (spec 30_encoding.md R85): RSV is 0 and OP is one of 1, 2, 3, 4. -/
def wordWellFormed (w : Word) : Bool :=
  w.extractLsb' 4 28 == 0 && 1 ≤ (w.extractLsb' 0 4).toNat && (w.extractLsb' 0 4).toNat ≤ 4

/-- A command has no operand field (R80, R82), so every command is well formed. -/
def Instr.wellFormed : Instr → Bool
  | .block => true
  | .xor => true
  | .kstream => true
  | .ctrinc => true

/-- The bound that spec 00_scope.md R8 puts on P_ADDR_W. -/
def Platform.wellFormed (p : Platform) : Bool := 1 ≤ p.addrW && p.addrW ≤ 32

end Sys2Proof
end

