-- ==== Sys2Proof/Decode.lean ====
section
/-! DEFINITION. The command decoder and encoder (spec 30_encoding.md R80 to R87). The decoder is total:
it maps every 32-bit word to one of the four commands or to a rejection by name, and the machine gives
every rejection the ILLEGAL_CMD report (R85), not a refusal. -/

namespace Sys2Proof

/-- Why a word is illegal (R85). Both report ILLEGAL_CMD. -/
inductive DecodeReject where
  /-- RSV, bits 31:4, is not 0. -/
  | reservedBitsSet
  /-- RSV is 0 and OP is 0x0 or 0x5..0xF. -/
  | reservedOpcode
deriving DecidableEq, Repr

/-- What a command word decodes as. -/
inductive Decoded where
  | command (i : Instr)
  | illegal (why : DecodeReject)
deriving DecidableEq, Repr

/-- OP, bits 3:0 of a command word (R80). -/
def opField (w : Word) : BitVec 4 := w.extractLsb' 0 4

/-- RSV, bits 31:4 of a command word (R80). -/
def rsvField (w : Word) : BitVec 28 := w.extractLsb' 4 28

/-- The opcode map (R83). -/
def opcodeMap (op : BitVec 4) : Decoded :=
  if op = 0x1 then .command .block
  else if op = 0x2 then .command .xor
  else if op = 0x3 then .command .kstream
  else if op = 0x4 then .command .ctrinc
  else .illegal .reservedOpcode

/-- The decoder (R84, R85). -/
def decode (w : Word) : Decoded :=
  if rsvField w = 0 then opcodeMap (opField w) else .illegal .reservedBitsSet

/-- The OP value of a command (R83). -/
def opcodeOf : Instr → BitVec 4
  | .block => 0x1
  | .xor => 0x2
  | .kstream => 0x3
  | .ctrinc => 0x4

/-- The encoder: RSV = 0 above OP (R80, R81). -/
def encode (i : Instr) : Word := (0 : BitVec 28) ++ opcodeOf i

/-- The command word that the low `nbits` bits of `w` spell, if they fit in the one 32-bit format of
R86. Bit 0 of the number is bit 0 of the word: a register access carries a number (R64). -/
def tableWord (nbits w : Nat) : Option Word :=
  if w % 2 ^ nbits < 2 ^ 32 then some (BitVec.ofNat 32 (w % 2 ^ nbits)) else none

/-- The instruction the decoder reads from a row of spec/opcode_table.json. -/
def decodeTableWord (nbits w : Nat) : Option Instr :=
  match tableWord nbits w with
  | none => none
  | some v =>
    match decode v with
    | .command i => some i
    | .illegal _ => none

end Sys2Proof
end

