-- ==== Sys2Proof/Machine/State.lean ====
section
/-! DEFINITION. The state of the modelled system: all of CC20's state (spec 10_state.md R20), data
memory (20_memory.md R60), the platform parameters (00_scope.md R8), and the model's own two fields:
the coming turns of the interleaving and the trace of recorded events. -/

namespace Sys2Proof.Machine

/-- PHASE (spec 10_state.md R36): the micro-step ENGINE takes next. -/
inductive Phase where
  | idle
  | init
  | round
  | feed
  | emit
  | inc
  | wipe
deriving DecidableEq, Repr

/-- The error causes of spec 60_exceptions.md R200, with NONE. The values of EC and of STATUS.ECODE:
codes 4 to 15 are never produced (log 7). -/
inductive ErrorCode where
  | none
  | illegalCmd
  | range
  | ctrOverflow
deriving DecidableEq, Repr

/-- A register access width the port cannot express (spec 20_memory.md R66). -/
inductive OtherWidth where
  | bits8
  | bits16
  | bits64
deriving DecidableEq, Repr

/-- One atomic action of HOST (spec 30_encoding.md R88). Register addresses are platform addresses,
so CC20's window is at P_REG_BASE. -/
inductive HostAction where
  /-- `wr`: write a 32-bit value to a register. -/
  | wr (addr : Nat) (v : Word)
  /-- `rd`: read a register. -/
  | rd (addr : Nat)
  /-- `mwr`, one byte. -/
  | mwr (addr : Nat) (b : Byte)
  /-- `mrd`, one byte. -/
  | mrd (addr : Nat)
  /-- A register access of another width, which the model refuses (R66). -/
  | regOther (width : OtherWidth) (addr : Nat)
deriving DecidableEq, Repr

/-- Whose atomic action comes next in the interleaving (spec 00_scope.md R9, 20_memory.md R71); RESET
is the environment's (70_reset_and_hazards.md R230). -/
inductive Turn where
  | host (a : HostAction)
  | engine
  | reset
deriving DecidableEq, Repr

/-- A recorded event. ENGINE's are those of spec 20_memory.md R62; HOST's reads carry the value that
the program names (30_encoding.md R88). -/
inductive Event where
  | engineRead (a : Nat)
  | engineWrite (a : Nat) (v : Byte)
  | hostRegRead (addr : Nat) (v : Word)
  | hostMemRead (a : Nat) (v : Byte)
  | hostMemWrite (a : Nat) (v : Byte)
deriving DecidableEq, Repr

/-- Data memory, in one canonical form: addresses strictly rising, no entry equal to what an unlisted
address reads as (`Memory.wf`). -/
abbrev Memory := List Host.Cell

/-- What an address that memory does not list reads as. With the list, every content MEM0 can be
written down (log 5). -/
def unlistedByte : Byte := 0x00

structure State where
  /-- KEY[0..7] (R21). -/
  key : Vector Word 8
  /-- NC[0..3] (R22): NC[0] is the block counter. -/
  nc : Vector Word 4
  /-- S[0..15] (R23). -/
  sfile : Vector Word 16
  /-- X[0..15] (R24). -/
  xfile : Vector Word 16
  /-- KS[0..15] (R25). -/
  ks : Vector Word 16
  /-- STATUS.DONE (R29). STATUS.BUSY is `State.busy`: it is PHASE ≠ IDLE (R36, log 6). -/
  done : Bool
  /-- STATUS.ERR (R29). -/
  err : Bool
  /-- STATUS.OVF (R29). -/
  ovf : Bool
  /-- STATUS.IGN (R29). -/
  ign : Bool
  /-- STATUS.ECODE (R29). -/
  ecode : ErrorCode
  /-- CFG.IE (R30). -/
  ie : Bool
  /-- SRC (R31). -/
  src : Word
  /-- DST (R31). -/
  dst : Word
  /-- LEN (R31). -/
  len : Word
  /-- BYTES (R33). -/
  bytes : Word
  /-- PHASE (R36). -/
  phase : Phase
  /-- OP (R36); `none` is NONE. -/
  op : Option Instr
  /-- RND (R36). -/
  rnd : Nat
  /-- OFF (R36). -/
  off : Word
  /-- J (R36). -/
  j : Nat
  /-- WLEN (R36). -/
  wlen : Nat
  /-- EC (R36). -/
  ec : ErrorCode
  /-- MEM (20_memory.md R60). -/
  mem : Memory
  /-- P_ADDR_W and P_REG_BASE (00_scope.md R8). -/
  platform : Platform
  /-- The model's own: the coming turns, first turn first (log 1). -/
  schedule : List Turn
  /-- The model's own: recorded events, newest first (log 11). -/
  trace : List Event
deriving DecidableEq, Repr

/-- Why the machine stops. -/
inductive Fault where
  /-- A byte access at `a ≥ 2^P_ADDR_W`: raised by ENGINE's memory primitives (spec 20_memory.md R62)
  and by a HOST byte access. The spec says a model should fault. Safe. -/
  | memoryAddress (a : Nat)
  /-- A micro-step in a sequencer state that spec 10_state.md R37 says is not reachable: raised by the
  ROUND, FEED, EMIT and INC micro-steps. Safe (log 10). -/
  | sequencer (p : Phase)
deriving DecidableEq, Repr

/-- What the model gives no meaning. -/
inductive Refusal where
  /-- An instruction with no meaning yet: raised by `exec`'s arms alone. Safe. -/
  | notModelled (mnemonic : String)
  /-- A register access that is not of a whole 32-bit word: raised by a HOST turn; the spec says a
  model refuses it (20_memory.md R66). Safe. -/
  | registerAccessWidth (addr : Nat)
  /-- A register access outside CC20's window: raised by a HOST turn; what it reaches is the
  platform's, not CC20's (log 8). Safe. -/
  | outsideRegisterWindow (addr : Nat)
deriving DecidableEq, Repr

/-- The outcome type of every meaning. -/
abbrev Result := Host.Outcome State Fault Refusal

/-- The state after reset: the values of spec 10_state.md R41. Memory, the platform, the schedule and
the trace are not CC20's and are the model's own choices (log 1, 3, 4, 5, 11). -/
def State.reset : State where
  key := Vector.replicate 8 0
  nc := Vector.replicate 4 0
  sfile := Vector.replicate 16 0
  xfile := Vector.replicate 16 0
  ks := Vector.replicate 16 0
  done := false
  err := false
  ovf := false
  ign := false
  ecode := .none
  ie := false
  src := 0
  dst := 0
  len := 0
  bytes := 0
  phase := .idle
  op := none
  rnd := 0
  off := 0
  j := 0
  wlen := 0
  ec := .none
  mem := []
  platform := .default
  schedule := []
  trace := []

end Sys2Proof.Machine
end

