-- ==== Sys2Proof/Machine/Flags.lean ====
section
/-! DEFINITION. STATUS and CFG as HOST sees them, their writes, and the IRQ line (spec 10_state.md R29,
R30, R36, R38; 60_exceptions.md R200, R210). -/

namespace Sys2Proof.Machine

/-- STATUS.BUSY: 1 exactly when PHASE ≠ IDLE (R29, R36). -/
def State.busy (s : State) : Bool := s.phase ≠ .idle

/-- The code of an error cause (R200). -/
def ErrorCode.code : ErrorCode → BitVec 4
  | .none => 0
  | .illegalCmd => 1
  | .range => 2
  | .ctrOverflow => 3

/-- STATUS as a 32-bit value (R29): bits 31:12 and 7:5 read 0. -/
def statusWord (s : State) : Word :=
  (0 : BitVec 20) ++ s.ecode.code ++ (0 : BitVec 3) ++ BitVec.ofBool s.ign ++ BitVec.ofBool s.ovf ++
    BitVec.ofBool s.err ++ BitVec.ofBool s.done ++ BitVec.ofBool s.busy

/-- CFG as a 32-bit value (R30): bits 31:1 read 0. -/
def cfgWord (s : State) : Word := (0 : BitVec 31) ++ BitVec.ofBool s.ie

/-- A HOST write to CFG takes bit 0 and ignores the rest (R30). -/
def writeCfg (w : Word) (s : State) : State := { s with ie := w.getLsbD 0 }

/-- A HOST write to STATUS: write-one-to-clear of bits 1 to 4, ECODE going with ERR (R29). It is also
how a report is acknowledged: CC20 has no return from trap (60_exceptions.md R208). -/
def writeStatus (w : Word) (s : State) : State :=
  { s with
    done := s.done && !w.getLsbD 1
    err := s.err && !w.getLsbD 2
    ecode := if w.getLsbD 2 then .none else s.ecode
    ovf := s.ovf && !w.getLsbD 3
    ign := s.ign && !w.getLsbD 4 }

/-- Accept and reject both first clear the previous command's report (30_encoding.md R84). -/
def clearReport (s : State) : State :=
  { s with done := false, err := false, ovf := false, ign := false, ecode := .none, bytes := 0 }

/-- The IRQ line (R38, R210). -/
def State.irq (s : State) : Bool := s.ie && (s.done || s.err)

end Sys2Proof.Machine
end

