-- ==== Sys2Proof/Machine/Operands.lean ====
section
/-! DEFINITION. Word and byte-order helpers (spec 00_scope.md R12, R13), the byte views of KEY and NC
(10_state.md R21, R22), the constants (41_block_function.md R120), and the operands a command reads
from registers: its memory ranges and its byte addresses (30_encoding.md R82, 60_exceptions.md R200). -/

namespace Sys2Proof.Machine

/-- `rotl32(v, n)` of R12, for 1 ≤ n ≤ 31. -/
def rotl32 (v : Word) (n : Nat) : Word := (v <<< n) ||| (v >>> (32 - n))

/-- `le32` of R13. -/
def le32 (b0 b1 b2 b3 : Byte) : Word :=
  b0.setWidth 32 ||| (b1.setWidth 32 <<< 8) ||| (b2.setWidth 32 <<< 16) ||| (b3.setWidth 32 <<< 24)

/-- `byte(v, k)` of R13, for k in 0..3. -/
def byteOf (v : Word) (k : Nat) : Byte := v.extractLsb' (8 * k) 8

/-- Key byte k (R21). -/
def keyByte (key : Vector Word 8) (k : Fin 32) : Byte := byteOf (key[k.val / 4]'(by omega)) (k.val % 4)

/-- The KEY words a host holding key bytes `kb` writes (R21). -/
def keyOfBytes (kb : Vector Byte 32) : Vector Word 8 :=
  Vector.ofFn fun i : Fin 8 => le32 kb[4 * i.val] kb[4 * i.val + 1] kb[4 * i.val + 2] kb[4 * i.val + 3]

/-- The 16 nonce/counter bytes that NC holds (R22). -/
def ncBytes (nc : Vector Word 4) : Vector Byte 16 :=
  Vector.ofFn fun k : Fin 16 => byteOf (nc[k.val / 4]'(by omega)) (k.val % 4)

/-- The NC words that hold nonce/counter bytes `nb` (R22). -/
def ncOfBytes (nb : Vector Byte 16) : Vector Word 4 :=
  Vector.ofFn fun i : Fin 4 => le32 nb[4 * i.val] nb[4 * i.val + 1] nb[4 * i.val + 2] nb[4 * i.val + 3]

/-- SIGMA[0..3] (R120). -/
def sigma : Vector Word 4 := #v[0x61707865, 0x3320646e, 0x79622d32, 0x6b206574]

/-- Does `[base, base + n)` fit below 2^P_ADDR_W, in exact arithmetic (R82, R200)? -/
def rangeFits (s : State) (base n : Nat) : Bool := base + n ≤ 2 ^ s.platform.addrW

/-- `range_ok(BLOCK)` (R200): SRC and LEN play no part. -/
def rangeOkBlock (s : State) : Bool := rangeFits s s.dst.toNat Config.blockBytes

/-- `range_ok(XOR)` (R200). -/
def rangeOkXor (s : State) : Bool := rangeFits s s.src.toNat s.len.toNat && rangeFits s s.dst.toNat s.len.toNat

/-- `range_ok(KSTREAM)` (R200): SRC plays no part. -/
def rangeOkKstream (s : State) : Bool := rangeFits s s.dst.toNat s.len.toNat

/-- `range_ok(CTRINC)` (R200). -/
def rangeOkCtrinc (_ : State) : Bool := true

/-- `range_ok` (R200). -/
def rangeOk : Instr → State → Bool
  | .block, s => rangeOkBlock s
  | .xor, s => rangeOkXor s
  | .kstream, s => rangeOkKstream s
  | .ctrinc, s => rangeOkCtrinc s

/-- `SRC + OFF + J`, exact (43_stream_xor.md R163, R82). -/
def inputAddr (s : State) : Nat := s.src.toNat + s.off.toNat + s.j

/-- `DST + OFF + J`, exact (43_stream_xor.md R163, R82). -/
def outputAddr (s : State) : Nat := s.dst.toNat + s.off.toNat + s.j

/-- `DST + J`, exact: BLOCK's output address (43_stream_xor.md R163). -/
def blockAddr (s : State) : Nat := s.dst.toNat + s.j

end Sys2Proof.Machine
end

