-- ==== Sys2Proof/Machine/Ops.lean ====
section
/-! DEFINITION. The named operations: memory, ENGINE's two memory primitives (spec 20_memory.md R62),
the error path (60_exceptions.md R201, R203; 00_scope.md R14), a dropped write (10_state.md R32), the
accept of a command (30_encoding.md R84), and reset (70_reset_and_hazards.md R230). -/

namespace Sys2Proof.Machine

/-- Run `f` on the value of a step that goes on. -/
def andThen {α β : Type} (r : Host.Outcome α Fault Refusal) (f : α → Host.Outcome β Fault Refusal) :
    Host.Outcome β Fault Refusal :=
  match r with
  | .next a => f a
  | .fault e => .fault e
  | .refused e => .refused e

/-! ### Memory -/

/-- The byte at an address: the listed one, else what an unlisted address reads as (R60, R79). -/
def memRead : Memory → Nat → Byte
  | [], _ => unlistedByte
  | (b, v) :: m, a => if a = b then v else memRead m a

/-- Memory with every entry of `a` taken out. -/
def memErase (m : Memory) (a : Nat) : Memory := m.filter fun c => c.1 ≠ a

/-- Memory with the entry `(a, v)` put before the first entry of a higher address. -/
def memInsert : Memory → Nat → Byte → Memory
  | [], a, v => [(a, v)]
  | (b, w) :: m, a, v => if a < b then (a, v) :: (b, w) :: m else (b, w) :: memInsert m a v

/-- A byte write. Writing what an unlisted address reads as removes the entry. -/
def memWrite (m : Memory) (a : Nat) (v : Byte) : Memory :=
  if v = unlistedByte then memErase m a else memInsert (memErase m a) a v

/-- Every address of the list is above `lo`, rising, and no entry is the unlisted byte. -/
def Memory.wfAbove : Nat → Memory → Bool
  | _, [] => true
  | lo, (b, v) :: m => lo ≤ b && v != unlistedByte && Memory.wfAbove (b + 1) m

/-- The canonical form of memory. -/
def Memory.wf (m : Memory) : Bool := Memory.wfAbove 0 m

/-- Every listed address is below 2^P_ADDR_W (R60). -/
def Memory.within (addrW : Nat) (m : Memory) : Bool := m.all fun c => c.1 < 2 ^ addrW

/-- Does MEM have a byte at `a` (R60)? -/
def hasByte (s : State) (a : Nat) : Bool := a < 2 ^ s.platform.addrW

/-- `MemRead(a, 1)` (R62): the byte, and the read event recorded. -/
def engineRead (a : Nat) (s : State) : Host.Outcome (Byte × State) Fault Refusal :=
  if hasByte s a then .next (memRead s.mem a, { s with trace := .engineRead a :: s.trace })
  else .fault (.memoryAddress a)

/-- `MemWrite(a, 1, v)` (R62): the byte stored, and the write event recorded. -/
def engineWrite (a : Nat) (v : Byte) (s : State) : Result :=
  if hasByte s a then .next { s with mem := memWrite s.mem a v, trace := .engineWrite a v :: s.trace }
  else .fault (.memoryAddress a)

/-- HOST's read of one byte of MEM (R60, 30_encoding.md R88). -/
def hostMemRead (a : Nat) (s : State) : Result :=
  if hasByte s a then .next { s with trace := .hostMemRead a (memRead s.mem a) :: s.trace }
  else .fault (.memoryAddress a)

/-- HOST's write of one byte of MEM (R60, 30_encoding.md R88). -/
def hostMemWrite (a : Nat) (v : Byte) (s : State) : Result :=
  if hasByte s a then .next { s with mem := memWrite s.mem a v, trace := .hostMemWrite a v :: s.trace }
  else .fault (.memoryAddress a)

/-! ### Errors -/

/-- `raise <Error>(code)` (00_scope.md R14). At accept, PHASE = IDLE: the report is made at once and
PHASE stays IDLE (60_exceptions.md R201). In a command: EC takes the code and the sequencer moves to
WIPE, which reports it (R203). CC20 has no vector, no saved pc and no mode (R207). -/
def raiseError (c : ErrorCode) (s : State) : State :=
  match s.phase with
  | .idle => { s with err := true, ecode := c }
  | _ => { s with ec := c, phase := .wipe }

/-- A dropped write changes nothing but IGN (10_state.md R32). -/
def dropWrite (s : State) : State := { s with ign := true }

/-- A HOST write that BUSY drops (10_state.md R32). -/
def unlessBusy (f : State → State) (s : State) : State := if s.busy then dropWrite s else f s

/-! ### Accept -/

/-- A CMD write of a legal word (30_encoding.md R84): dropped while BUSY, else rejected with RANGE if
the range check fails, else accepted, the sequencer going to its first phase. -/
def startCommand (i : Instr) (ok : State → Bool) (first : State → Phase) (s : State) : State :=
  if s.busy then dropWrite s
  else if ok s then
    { clearReport s with
      op := some i, rnd := 0, off := 0, j := 0, wlen := 0, ec := .none, phase := first s }
  else raiseError .range (clearReport s)

/-- A CMD write of an illegal word (30_encoding.md R84, R85): dropped while BUSY, else rejected with
ILLEGAL_CMD. -/
def rejectIllegal (s : State) : State :=
  if s.busy then dropWrite s else raiseError .illegalCmd (clearReport s)

/-! ### Reset -/

/-- RESET (70_reset_and_hazards.md R230): every piece of CC20 state takes its reset value. MEM is not
CC20's and is kept, as are the platform, the coming turns and the trace. -/
def resetDevice (s : State) : State :=
  { State.reset with mem := s.mem, platform := s.platform, schedule := s.schedule, trace := s.trace }

end Sys2Proof.Machine
end

