-- ==== Sys2Proof/Machine/QuarterRound.lean ====
section
/-! DEFINITION. The quarter-round, the rounds, the 20-round permutation and the ROUND micro-step (spec
40_quarter_round.md). -/

namespace Sys2Proof.Machine

/-- `QR(a, b, c, d)`: the twelve operations in their order (R100). -/
def qr (a b c d : Word) : Word × Word × Word × Word :=
  let a := a + b
  let d := d ^^^ a
  let d := rotl32 d 16
  let c := c + d
  let b := b ^^^ c
  let b := rotl32 b 12
  let a := a + b
  let d := d ^^^ a
  let d := rotl32 d 8
  let c := c + d
  let b := b ^^^ c
  let b := rotl32 b 7
  (a, b, c, d)

/-- One group of words: the indices of QR's a, b, c and d. -/
abbrev Group := Fin 16 × Fin 16 × Fin 16 × Fin 16

/-- COL (R105). -/
def columnGroups : List Group := [(0, 4, 8, 12), (1, 5, 9, 13), (2, 6, 10, 14), (3, 7, 11, 15)]

/-- DIAG (R105). -/
def diagonalGroups : List Group := [(0, 5, 10, 15), (1, 6, 11, 12), (2, 7, 8, 13), (3, 4, 9, 14)]

/-- The groups of round r (R105). -/
def groupsOf (r : Nat) : List Group := if r % 2 = 0 then columnGroups else diagonalGroups

/-- `(Y[p], Y[q], Y[s], Y[t]) <- QR(Y[p], Y[q], Y[s], Y[t])` (R105). -/
def qrAt (y : Vector Word 16) (g : Group) : Vector Word 16 :=
  let (p, q, s, t) := g
  let (a, b, c, d) := qr y[p] y[q] y[s] y[t]
  (((y.set p a).set q b).set s c).set t d

/-- `ROUNDFN(X, r)` (R105). -/
def roundFn (x : Vector Word 16) (r : Nat) : Vector Word 16 := (groupsOf r).foldl qrAt x

/-- `DOUBLEROUND(X)` (R108). -/
def doubleRound (x : Vector Word 16) : Vector Word 16 := roundFn (roundFn x 0) 1

/-- Rounds 0 to n-1 (R109). -/
def roundsTo (x : Vector Word 16) : Nat → Vector Word 16
  | 0 => x
  | n + 1 => roundFn (roundsTo x n) n

/-- `PERMUTE(S)` (R109). -/
def permute (x : Vector Word 16) : Vector Word 16 := roundsTo x Config.rounds

/-- The ROUND micro-step (R104), for 0 ≤ RND ≤ 19. -/
def microRound (s : State) : Result :=
  if s.rnd < Config.rounds then
    .next { s with
      xfile := roundFn s.xfile s.rnd
      rnd := s.rnd + 1
      phase := if s.rnd + 1 = Config.rounds then .feed else .round }
  else .fault (.sequencer .round)

end Sys2Proof.Machine
end

