-- ==== Sys2Proof/Machine/BlockFunction.lean ====
section
/-! DEFINITION. The word loader, the feedforward, the serializer, the block function, the INIT and FEED
micro-steps, and the BLOCK command (spec 41_block_function.md; EMIT's BLOCK case is 43_stream_xor.md
R163). -/

namespace Sys2Proof.Machine

/-- The input state: SIGMA, KEY, NC in that order (R121, R123). -/
def initState (key : Vector Word 8) (nc : Vector Word 4) : Vector Word 16 := sigma ++ key ++ nc

/-- `FF(X, S)` (R126): word by word, mod 2^32. -/
def feedForward (x s : Vector Word 16) : Vector Word 16 := Vector.ofFn fun i : Fin 16 => x[i] + s[i]

/-- `SER(KS)[j]`, for j in 0..63 (R125). -/
def ser (ks : Vector Word 16) (j : Nat) : Byte := byteOf ks[Fin.ofNat 16 (j / 4)] (j % 4)

/-- The keystream words of a block: `FF(PERMUTE(S0), S0)` (R126). -/
def blockWords (key : Vector Word 8) (nc : Vector Word 4) : Vector Word 16 :=
  feedForward (permute (initState key nc)) (initState key nc)

/-- `BLOCKFN(KEY, NC)[j]`, for j in 0..63 (R126). -/
def blockFn (key : Vector Word 8) (nc : Vector Word 4) (j : Nat) : Byte := ser (blockWords key nc) j

/-- The INIT micro-step (R121). -/
def microInit (s : State) : Result :=
  .next { s with
    sfile := initState s.key s.nc
    xfile := initState s.key s.nc
    rnd := 0
    phase := .round }

/-- The FEED micro-step with the window length it sets (R124). -/
def feedWindow (wlen : Nat) (s : State) : Result :=
  .next { s with ks := feedForward s.xfile s.sfile, wlen := wlen, j := 0, phase := .emit }

/-- FEED for BLOCK: WLEN <- 64 (R124). -/
def feedBlock (s : State) : Result := feedWindow Config.blockBytes s

/-- The end of an EMIT micro-step (43_stream_xor.md R163): BYTES and J advance, and after the last byte
of the window the sequencer goes to `last`. -/
def emitAdvance (last : Phase) (s : State) : State :=
  { s with bytes := s.bytes + 1, j := s.j + 1, phase := if s.j + 1 = s.wlen then last else .emit }

/-- EMIT for BLOCK: `MemWrite(DST + J, 1, SER(KS)[J])` (43_stream_xor.md R163). -/
def emitBlock (s : State) : Result :=
  andThen (engineWrite (blockAddr s) (ser s.ks s.j) s) fun t => .next (emitAdvance .wipe t)

/-- BLOCK (R128): the CMD write of the word 0x00000001 (30_encoding.md R84). The command's further
micro-steps are ENGINE's (log 18). -/
def execBlock (s : State) : Result := .next (startCommand .block rangeOkBlock (fun _ => .init) s)

end Sys2Proof.Machine
end

