-- ==== Sys2Proof/Machine/Counter.lean ====
section
/-! DEFINITION. The counter increment and overflow detector, the INC micro-step and the CTRINC command
(spec 42_counter.md). -/

namespace Sys2Proof.Machine

/-- The loop of `CTR_INC` (R140): `n` bytes from position `p` upward, with the carry going in. The byte
is stored before the carry is tested. -/
def ctrIncLoop : Nat → Nat → Bool → Vector Byte 16 → Vector Byte 16 × Bool
  | 0, _, carry, nb => (nb, carry)
  | n + 1, p, carry, nb =>
    let t := nb[Fin.ofNat 16 p].toNat + carry.toNat
    ctrIncLoop n (p + 1) (256 ≤ t) (nb.set (Fin.ofNat 16 p) (BitVec.ofNat 8 t))

/-- `CTR_INC(nb, off, len)` (R140): the bytes, and the overflow bit. -/
def ctrInc (nb : Vector Byte 16) (off len : Nat) : Vector Byte 16 × Bool := ctrIncLoop len off true nb

/-- `CTR_INC` on NC's bytes at (CTR_OFF, CTR_LEN) = (0, 4) (R140, R148). -/
def incNc (nc : Vector Word 4) : Vector Word 4 × Bool :=
  let (nb, ovf) := ctrInc (ncBytes nc) Config.ctrOff Config.ctrLen
  (ncOfBytes nb, ovf)

/-- The INC micro-step (R143): the counter, OFF <- OFF + WLEN, then CTR_OVERFLOW on a carry out
(60_exceptions.md R203), else the phase that `after` gives. -/
def incWindow (after : State → Phase) (s : State) : Result :=
  let t := { s with nc := (incNc s.nc).1, off := s.off + BitVec.ofNat 32 s.wlen }
  if (incNc s.nc).2 then .next (raiseError .ctrOverflow t) else .next { t with phase := after t }

/-- INC for CTRINC: WIPE comes next (R143). -/
def incCtrinc (s : State) : Result := incWindow (fun _ => .wipe) s

/-- CTRINC (R145): the CMD write of the word 0x00000004 (30_encoding.md R84). -/
def execCtrinc (s : State) : Result := .next (startCommand .ctrinc rangeOkCtrinc (fun _ => .inc) s)

end Sys2Proof.Machine
end

