-- ==== Sys2Proof/Machine/Stream.lean ====
section
/-! DEFINITION. The streaming loop: FEED, EMIT and INC for XOR and KSTREAM, the WIPE micro-step, and the
XOR and KSTREAM commands (spec 43_stream_xor.md). -/

namespace Sys2Proof.Machine

/-- The window length of a stream: `min(64, LEN - OFF)` (41_block_function.md R124). -/
def windowLength (s : State) : Nat := min Config.blockBytes (s.len.toNat - s.off.toNat)

/-- FEED for XOR (41_block_function.md R124). -/
def feedXor (s : State) : Result := feedWindow (windowLength s) s

/-- FEED for KSTREAM (41_block_function.md R124). -/
def feedKstream (s : State) : Result := feedWindow (windowLength s) s

/-- EMIT for XOR: the read of the input byte, then the write of the output byte, one atomic step
(R163, 20_memory.md R67). -/
def emitXor (s : State) : Result :=
  andThen (engineRead (inputAddr s) s) fun (v, t) =>
    andThen (engineWrite (outputAddr s) (v ^^^ ser s.ks s.j) t) fun u => .next (emitAdvance .inc u)

/-- EMIT for KSTREAM: the input byte is taken as 0x00, and nothing is read (R163, R165). -/
def emitKstream (s : State) : Result :=
  andThen (engineWrite (outputAddr s) (ser s.ks s.j) s) fun t => .next (emitAdvance .inc t)

/-- After a window: INIT while OFF < LEN, else WIPE (42_counter.md R143). -/
def afterWindow (s : State) : Phase := if s.off.toNat < s.len.toNat then .init else .wipe

/-- INC for XOR (42_counter.md R143). -/
def incXor (s : State) : Result := incWindow afterWindow s

/-- INC for KSTREAM (42_counter.md R143). -/
def incKstream (s : State) : Result := incWindow afterWindow s

/-- The WIPE micro-step (R170). -/
def microWipe (s : State) : Result :=
  .next { s with
    ks := Vector.replicate 16 0
    sfile := Vector.replicate 16 0
    xfile := Vector.replicate 16 0
    done := if s.ec = .none then true else s.done
    err := if s.ec = .none then s.err else true
    ecode := if s.ec = .none then s.ecode else s.ec
    ovf := if s.ec = .ctrOverflow then true else s.ovf
    op := none
    rnd := 0
    off := 0
    j := 0
    wlen := 0
    ec := .none
    phase := .idle }

/-- The first phase of a stream: WIPE when LEN = 0 (R168, 30_encoding.md R84). -/
def streamFirst (s : State) : Phase := if s.len = 0 then .wipe else .init

/-- XOR (R166): the CMD write of the word 0x00000002 (30_encoding.md R84). -/
def execXor (s : State) : Result := .next (startCommand .xor rangeOkXor streamFirst s)

/-- KSTREAM (R167): the CMD write of the word 0x00000003 (30_encoding.md R84). -/
def execKstream (s : State) : Result := .next (startCommand .kstream rangeOkKstream streamFirst s)

end Sys2Proof.Machine
end

