-- ==== Sys2Proof/Machine/Engine.lean ====
section
/-! DEFINITION. ENGINE's next micro-step: the transition table of spec 10_state.md R37. A row the table
does not have is not reachable, and faults by name (log 10). -/

namespace Sys2Proof.Machine

/-- FEED (41_block_function.md R124). -/
def microFeed (s : State) : Result :=
  match s.op with
  | some .block => feedBlock s
  | some .xor => feedXor s
  | some .kstream => feedKstream s
  | some .ctrinc => .fault (.sequencer .feed)
  | none => .fault (.sequencer .feed)

/-- EMIT, for 0 ≤ J < WLEN (43_stream_xor.md R163). -/
def microEmit (s : State) : Result :=
  if s.j < s.wlen ∧ s.wlen ≤ Config.blockBytes then
    match s.op with
    | some .block => emitBlock s
    | some .xor => emitXor s
    | some .kstream => emitKstream s
    | some .ctrinc => .fault (.sequencer .emit)
    | none => .fault (.sequencer .emit)
  else .fault (.sequencer .emit)

/-- INC (42_counter.md R143): it never runs for BLOCK. -/
def microInc (s : State) : Result :=
  match s.op with
  | some .block => .fault (.sequencer .inc)
  | some .xor => incXor s
  | some .kstream => incKstream s
  | some .ctrinc => incCtrinc s
  | none => .fault (.sequencer .inc)

/-- ENGINE's turn: no micro-step while PHASE = IDLE (60_exceptions.md R217), else the one PHASE names. -/
def engineStep (s : State) : Result :=
  match s.phase with
  | .idle => .next s
  | .init => microInit s
  | .round => microRound s
  | .feed => microFeed s
  | .emit => microEmit s
  | .inc => microInc s
  | .wipe => microWipe s

end Sys2Proof.Machine
end

