-- ==== Sys2Proof/Machine/Dispatch.lean ====
section
/-! DEFINITION. One arm per command: the meaning of the CMD write that issues it. -/

namespace Sys2Proof.Machine

/-- A HOST write of a command's word to CMD (spec 30_encoding.md R84). -/
def exec (i : Instr) (s : State) : Host.Outcome State Fault Refusal :=
  match i with
  | .block => Sys2Proof.Machine.execBlock s
  | .xor => Sys2Proof.Machine.execXor s
  | .kstream => Sys2Proof.Machine.execKstream s
  | .ctrinc => Sys2Proof.Machine.execCtrinc s

end Sys2Proof.Machine
end

