-- ==== Sys2Proof/Machine/Bus.lean ====
section
/-! DEFINITION. HOST's side: the register window (spec 10_state.md R27 to R35), HOST's actions
(30_encoding.md R88), the pseudo-operations (R89), and one turn of the interleaving. -/

namespace Sys2Proof.Machine

/-- The registers of the window (R27). -/
inductive Reg where
  | cmd
  | status
  | cfg
  | src
  | dst
  | len
  | bytes
  | key (i : Fin 8)
  | nc (i : Fin 4)
  | ksw (i : Fin 16)
  | reserved
deriving DecidableEq, Repr

/-- The register at word index `addr[7:2]` of the window (R27, R35). -/
def regOfIndex (n : Nat) : Reg :=
  if n = 0 then .cmd
  else if n = 1 then .status
  else if n = 2 then .cfg
  else if n = 3 then .src
  else if n = 4 then .dst
  else if n = 5 then .len
  else if n = 6 then .bytes
  else if 8 ≤ n ∧ n < 16 then .key (Fin.ofNat 8 (n - 8))
  else if 16 ≤ n ∧ n < 20 then .nc (Fin.ofNat 4 (n - 16))
  else if 32 ≤ n ∧ n < 48 then .ksw (Fin.ofNat 16 (n - 32))
  else .reserved

/-- The register a platform address selects: `addr[1:0]` is ignored (R35, 20_memory.md R66). -/
def regAt (p : Platform) (addr : Nat) : Option Reg :=
  if p.regBase ≤ addr ∧ addr < p.regBase + Config.windowBytes then some (regOfIndex ((addr - p.regBase) / 4))
  else none

/-- The offset of a register in the window (R27); 0x1C stands for the reserved ones. -/
def Reg.offset : Reg → Nat
  | .cmd => 0x00
  | .status => 0x04
  | .cfg => 0x08
  | .src => 0x0C
  | .dst => 0x10
  | .len => 0x14
  | .bytes => 0x18
  | .key i => 0x20 + 4 * i.val
  | .nc i => 0x40 + 4 * i.val
  | .ksw i => 0x80 + 4 * i.val
  | .reserved => 0x1C

/-- A HOST register read (R40): CMD, KEYi and reserved offsets read 0. -/
def readReg (r : Reg) (s : State) : Word :=
  match r with
  | .cmd => 0
  | .status => statusWord s
  | .cfg => cfgWord s
  | .src => s.src
  | .dst => s.dst
  | .len => s.len
  | .bytes => s.bytes
  | .key _ => 0
  | .nc i => s.nc[i]
  | .ksw i => s.ks[i]
  | .reserved => 0

/-- A HOST write to CMD (R28, 30_encoding.md R84). -/
def writeCmd (w : Word) (s : State) : Result :=
  match decode w with
  | .command i => exec i s
  | .illegal _ => .next (rejectIllegal s)

/-- A HOST register write (R27, R32): BYTES, KSWi and reserved offsets ignore it. -/
def writeReg (r : Reg) (w : Word) (s : State) : Result :=
  match r with
  | .cmd => writeCmd w s
  | .status => .next (writeStatus w s)
  | .cfg => .next (writeCfg w s)
  | .src => .next (unlessBusy (fun t => { t with src := w }) s)
  | .dst => .next (unlessBusy (fun t => { t with dst := w }) s)
  | .len => .next (unlessBusy (fun t => { t with len := w }) s)
  | .bytes => .next s
  | .key i => .next (unlessBusy (fun t => { t with key := t.key.set i w }) s)
  | .nc i => .next (unlessBusy (fun t => { t with nc := t.nc.set i w }) s)
  | .ksw _ => .next s
  | .reserved => .next s

/-- One atomic HOST action (30_encoding.md R88). -/
def hostStep (a : HostAction) (s : State) : Result :=
  match a with
  | .wr addr v =>
    match regAt s.platform addr with
    | some r => writeReg r v s
    | none => .refused (.outsideRegisterWindow addr)
  | .rd addr =>
    match regAt s.platform addr with
    | some r => .next { s with trace := .hostRegRead addr (readReg r s) :: s.trace }
    | none => .refused (.outsideRegisterWindow addr)
  | .mwr addr b => hostMemWrite addr b s
  | .mrd addr => hostMemRead addr s
  | .regOther _ addr => .refused (.registerAccessWidth addr)

/-- One turn of the interleaving (00_scope.md R9, 70_reset_and_hazards.md R230). -/
def turnStep (t : Turn) (s : State) : Result :=
  match t with
  | .host a => hostStep a s
  | .engine => engineStep s
  | .reset => .next (resetDevice s)

/-- The next turn of the schedule is taken out of it and run. With no turn left HOST has no further
action, and ENGINE, which is weakly fair, takes every step (00_scope.md R10, log 1). -/
def nextTurn (s : State) : Result :=
  match s.schedule with
  | [] => engineStep s
  | t :: rest => turnStep t { s with schedule := rest }

/-- The platform address of a register (30_encoding.md R88). -/
def addrOf (p : Platform) (r : Reg) : Nat := p.regBase + r.offset

/-- `wr REG, imm32` (30_encoding.md R88). -/
def wrReg (p : Platform) (r : Reg) (v : Word) : Turn := .host (.wr (addrOf p r) v)

/-- `rd REG` (30_encoding.md R88). -/
def rdReg (p : Platform) (r : Reg) : Turn := .host (.rd (addrOf p r))

/-- `mwr addr, b0 b1 ...`: one byte write per byte, ascending (30_encoding.md R88). -/
def mwrBytes : Nat → List Byte → List Turn
  | _, [] => []
  | a, b :: bs => .host (.mwr a b) :: mwrBytes (a + 1) bs

/-- `mrd addr, n`: one byte read per byte, ascending (30_encoding.md R88). -/
def mrdBytes : Nat → Nat → List Turn
  | _, 0 => []
  | a, n + 1 => .host (.mrd a) :: mrdBytes (a + 1) n

/-- `cmd <mnemonic>` (30_encoding.md R89). -/
def pseudoCmd (p : Platform) (i : Instr) : List Turn := [wrReg p .cmd (encode i)]

/-- `key kb0 .. kb31`: KEY0 to KEY7, ascending (30_encoding.md R89). -/
def pseudoKey (p : Platform) (kb : Vector Byte 32) : List Turn :=
  (List.finRange 8).map fun i => wrReg p (.key i) (keyOfBytes kb)[i]

/-- `nc nb0 .. nb15`: NC0 to NC3, ascending (30_encoding.md R89). -/
def pseudoNc (p : Platform) (nb : Vector Byte 16) : List Turn :=
  (List.finRange 4).map fun i => wrReg p (.nc i) (ncOfBytes nb)[i]

/-- `clr` (30_encoding.md R89). -/
def pseudoClr (p : Platform) : List Turn := [wrReg p .status 0x0000001E]

/-- `wait` as it appears in one interleaving: the polls of STATUS that the host's loop makes, with `k`
ENGINE turns before each. The loop's end test is the host's (30_encoding.md R89). -/
def pseudoWait (p : Platform) : List Nat → List Turn
  | [] => []
  | k :: ks => List.replicate k .engine ++ rdReg p .status :: pseudoWait p ks

/-- The turn that puts the instruction word `w` in front of the machine: a write to CMD. -/
def fetchTurn (p : Platform) (nbits w : Nat) : Turn := wrReg p .cmd (BitVec.ofNat 32 (w % 2 ^ nbits))

end Sys2Proof.Machine
end

