-- ==== Sys2Proof/Machine/Step.lean ====
section
/-! DEFINITION. One step of the system: one atomic action of one agent (spec 00_scope.md R9). -/

namespace Sys2Proof.Machine

/-- One step: the next turn of the interleaving. -/
def step (s : State) : Host.Outcome State Fault Refusal := nextTurn s

/-- `s` with a HOST write of the instruction word to CMD as its next turn: CC20 fetches nothing, and
commands reach it only as CMD writes (spec 20_memory.md R75, log 2). -/
def State.withFetchWord (s : State) (nbits w : Nat) : State :=
  { s with schedule := fetchTurn s.platform nbits w :: s.schedule }

end Sys2Proof.Machine
end

