-- ==== Sys2Proof/Safety.lean ====
section
/-! DEFINITION. The terms that claims use: runs of ENGINE micro-steps, what the end of a command is, the
stream-level quantities of spec 43_stream_xor.md R160 to R176, and the two invariants of the sequencer. -/

namespace Sys2Proof.Machine

/-- `n` ENGINE micro-steps with no other agent's action between them. -/
def engineRun : Nat → State → Result
  | 0, s => .next s
  | n + 1, s => andThen (engineStep s) (engineRun n)

/-- ENGINE takes exactly `n` micro-steps from `t` to the state `u` where BUSY is 0 again. -/
def EndsAfter (n : Nat) (t u : State) : Prop :=
  engineRun n t = .next u ∧ u.phase = .idle ∧
    ∀ m < n, ∀ v, engineRun m t = .next v → v.phase ≠ .idle

/-- The command word of `i`, written to CMD in `s`, leads by ENGINE micro-steps alone (no host access
races it) to the state `u` where BUSY is 0 again. -/
def Completes (i : Instr) (s u : State) : Prop :=
  ∃ t n, exec i s = .next t ∧ EndsAfter n t u

/-- What every command that was accepted in `s` and has ended in `u` leaves alone or at 0, whichever it
was (43_stream_xor.md R170; 10_state.md R21, R31, R43). -/
structure CommandEnd (s u : State) : Prop where
  key : u.key = s.key
  nonce : ∀ i : Fin 4, i ≠ 0 → u.nc[i] = s.nc[i]
  ie : u.ie = s.ie
  src : u.src = s.src
  dst : u.dst = s.dst
  len : u.len = s.len
  platform : u.platform = s.platform
  schedule : u.schedule = s.schedule
  sfile : u.sfile = Vector.replicate 16 0
  xfile : u.xfile = Vector.replicate 16 0
  ks : u.ks = Vector.replicate 16 0
  sequencer : u.phase = .idle ∧ u.op = none ∧ u.rnd = 0 ∧ u.off = 0 ∧ u.j = 0 ∧ u.wlen = 0 ∧ u.ec = .none

/-- The little-endian number in bytes `off` to `off + n - 1` (42_counter.md R140). -/
def leValue (nb : Vector Byte 16) (off : Nat) : Nat → Nat
  | 0 => 0
  | n + 1 => leValue nb off n + 256 ^ n * nb[Fin.ofNat 16 (off + n)].toNat

/-- ceil(n / 64): the number of windows of n bytes (R160). -/
def windows (n : Nat) : Nat := (n + 63) / 64

/-- NC with NC[0] replaced by NC[0] + m, mod 2^32 (41_block_function.md R130). -/
def ncAt (nc : Vector Word 4) (m : Nat) : Vector Word 4 := nc.set 0 (nc[0] + BitVec.ofNat 32 m)

/-- Keystream byte `o` of a stream that starts at `s`'s KEY and NC: byte `o mod 64` of the block of
window `floor(o / 64)` (R166, R172). -/
def keystream (s : State) (o : Nat) : Byte := blockFn s.key (ncAt s.nc (o / 64)) (o % 64)

/-- `min(LEN, 64 * (2^32 - NC[0]))`: the bytes a stream writes (R172). -/
def streamBytes (s : State) : Nat := min s.len.toNat (64 * (2 ^ 32 - s.nc[0].toNat))

/-- `NC[0] + ceil(LEN/64) > 2^32 - 1`: the stream ends with a counter overflow (R172). -/
def streamOverflows (s : State) : Bool := 2 ^ 32 - 1 < s.nc[0].toNat + windows s.len.toNat

/-- STATUS after a stream accepted in `s`: DONE only, or ERR, OVF and ECODE = 3 (R166, R175). -/
def streamStatus (s : State) : Word := if streamOverflows s then 0x0000030C else 0x00000002

/-- Memory after the first `n` byte operations of an XOR accepted in `s`: byte by byte, each read before
its write (20_memory.md R68, R78). -/
def xorMemory (s : State) : Nat → Memory
  | 0 => s.mem
  | n + 1 =>
    memWrite (xorMemory s n) (s.dst.toNat + n) (memRead (xorMemory s n) (s.src.toNat + n) ^^^ keystream s n)

/-- The trace after the first `n` byte operations of an XOR accepted in `s` (20_memory.md R68). -/
def xorTrace (s : State) : Nat → List Event
  | 0 => s.trace
  | n + 1 =>
    .engineWrite (s.dst.toNat + n) (memRead (xorMemory s n) (s.src.toNat + n) ^^^ keystream s n) ::
      .engineRead (s.src.toNat + n) :: xorTrace s n

/-- The trace after `n` writes of `out o` to `DST + o`, o ascending: BLOCK and KSTREAM (20_memory.md
R68). -/
def writeTrace (s : State) (out : Nat → Byte) : Nat → List Event
  | 0 => s.trace
  | n + 1 => .engineWrite (s.dst.toNat + n) (out n) :: writeTrace s out n

/-- The output of an XOR may reach input bytes that are still to be read (20_memory.md R78, third
case). -/
abbrev OutputRunsIntoInput (s : State) : Prop :=
  s.src.toNat < s.dst.toNat ∧ s.dst.toNat < s.src.toNat + s.len.toNat

/-- XOR or KSTREAM. -/
def isStream : Option Instr → Bool
  | some .xor => true
  | some .kstream => true
  | some .block => false
  | some .ctrinc => false
  | none => false

/-- The control invariant: the reachable sequencer states of spec 10_state.md R36 and R37, the idle
state of R43, the report of R29, and memory in canonical form within the address space. -/
structure ControlInv (s : State) : Prop where
  /-- 1 ≤ P_ADDR_W ≤ 32 (00_scope.md R8). -/
  platform : s.platform.wellFormed = true
  memWf : s.mem.wf = true
  memWithin : Memory.within s.platform.addrW s.mem = true
  /-- OP = NONE exactly when PHASE = IDLE. -/
  idleOp : s.phase = .idle ↔ s.op = none
  /-- R43. -/
  idleScratch : s.phase = .idle → s.sfile = Vector.replicate 16 0 ∧ s.xfile = Vector.replicate 16 0 ∧
    s.ks = Vector.replicate 16 0 ∧ s.rnd = 0 ∧ s.off = 0 ∧ s.j = 0 ∧ s.wlen = 0
  /-- BLOCK has no INC micro-step (41_block_function.md R128). -/
  blockPhase : s.op = some .block → s.phase ≠ .inc
  /-- CTRINC runs INC and WIPE only (42_counter.md R145). -/
  ctrincPhase : s.op = some .ctrinc → s.phase = .inc ∨ s.phase = .wipe
  rndRound : s.phase = .round → s.rnd < 20
  rndBound : s.rnd ≤ 20
  /-- EC is 0, or 3 on the way into WIPE (43_stream_xor.md R170). -/
  ecWipe : s.ec = .none ∨ (s.ec = .ctrOverflow ∧ s.phase = .wipe ∧ s.op ≠ some .block)
  /-- The range check held at accept, and its registers cannot change while BUSY (60_exceptions.md
  R200). -/
  range : ∀ i, s.op = some i → rangeOk i s = true
  /-- BLOCK and CTRINC never move OFF. -/
  offZero : isStream s.op = false → s.off = 0
  /-- OFF never passes LEN (42_counter.md R143). -/
  offBound : isStream s.op = true → s.off.toNat ≤ s.len.toNat
  /-- INIT is entered only while OFF < LEN (41_block_function.md R124). -/
  offBefore : isStream s.op = true → s.phase = .init ∨ s.phase = .round ∨ s.phase = .feed →
    s.off.toNat < s.len.toNat
  /-- In EMIT and INC the window length is the one FEED set (41_block_function.md R124). -/
  window : s.phase = .emit ∨ (s.phase = .inc ∧ isStream s.op = true) →
    1 ≤ s.wlen ∧ s.wlen ≤ 64 ∧ (isStream s.op = true → s.wlen = windowLength s) ∧
      (s.op = some .block → s.wlen = 64)
  emitJ : s.phase = .emit → s.j < s.wlen
  incJ : s.phase = .inc → isStream s.op = true → s.j = s.wlen
  ctrincZero : s.op = some .ctrinc → s.j = 0 ∧ s.wlen = 0 ∧ s.bytes = 0
  /-- BYTES = OFF before a window's first byte. -/
  bytesBefore : s.phase = .init ∨ s.phase = .round ∨ s.phase = .feed → s.bytes = s.off
  /-- BYTES = OFF + J after EMIT (43_stream_xor.md R163). -/
  bytesAfter : s.phase = .emit ∨ s.phase = .inc → s.bytes = s.off + BitVec.ofNat 32 s.j
  bounds : s.j ≤ 64 ∧ s.wlen ≤ 64
  /-- Accept cleared the report, and only WIPE makes a new one (30_encoding.md R84). -/
  busyReport : s.phase ≠ .idle → s.done = false ∧ s.err = false ∧ s.ovf = false
  /-- A command ends with DONE or on the error path, not both (43_stream_xor.md R170). -/
  oneReport : ¬(s.done = true ∧ s.err = true)
  /-- ECODE = 0 exactly when ERR = 0 (10_state.md R29). -/
  ecodeErr : s.err = true ↔ s.ecode ≠ .none

/-- The datapath invariant: the word files hold what spec 40_quarter_round.md R109 and
41_block_function.md R121 and R126 say they hold in each phase. -/
structure DataInv (s : State) : Prop where
  round : s.phase = .round →
    s.sfile = initState s.key s.nc ∧ s.xfile = roundsTo (initState s.key s.nc) s.rnd
  feed : s.phase = .feed → s.sfile = initState s.key s.nc ∧ s.xfile = permute (initState s.key s.nc)
  emit : s.phase = .emit → s.ks = blockWords s.key s.nc

/-- Every bit that spec 10_state.md R29 calls reserved in STATUS. -/
def statusReserved : Word := 0xFFFFF0E0

/-- The value that the newest recorded write to `a` stored, in a list of events newest first (20_memory.md
R71). -/
def lastWrite : List Event → Nat → Option Byte
  | [], _ => none
  | .engineWrite b v :: es, a => if a = b then some v else lastWrite es a
  | .hostMemWrite b v :: es, a => if a = b then some v else lastWrite es a
  | .engineRead _ :: es, a => lastWrite es a
  | .hostRegRead _ _ :: es, a => lastWrite es a
  | .hostMemRead _ _ :: es, a => lastWrite es a

/-- A register whose HOST write BUSY drops (10_state.md R32). -/
def Reg.dropped : Reg → Bool
  | .cmd => true
  | .src => true
  | .dst => true
  | .len => true
  | .key _ => true
  | .nc _ => true
  | .status => false
  | .cfg => false
  | .bytes => false
  | .ksw _ => false
  | .reserved => false

/-- A register that ignores a HOST write: read-only or reserved (10_state.md R32 to R35). -/
def Reg.ignored : Reg → Bool
  | .bytes => true
  | .ksw _ => true
  | .reserved => true
  | .cmd => false
  | .src => false
  | .dst => false
  | .len => false
  | .key _ => false
  | .nc _ => false
  | .status => false
  | .cfg => false

end Sys2Proof.Machine
end

