-- ==== Sys2Proof/Certificates/Slice0/Obligations.lean ====
section
/-! DEFINITION. The statements for the provers, from the numbered rules of spec/. Each is about every
state that meets its hypotheses; `Tests/Slice0.lean` holds a witness for each. A statement about `step`
names the coming turn in `schedule`, and one about accesses names `trace`: both fields are the model's own
(log 1, 11). -/

open Sys2Proof Sys2Proof.Machine

/-! ### Encoding -/

/-- Command words written out from 30_encoding.md R83 and R90 decode as the table says. -/
def Obligations.CommandWordsDecode : Prop :=
  decode 0x00000001 = .command .block ∧ decode 0x00000002 = .command .xor ∧
  decode 0x00000003 = .command .kstream ∧ decode 0x00000004 = .command .ctrinc ∧
  decode 0x00000000 = .illegal .reservedOpcode ∧ decode 0x00000005 = .illegal .reservedOpcode ∧
  decode 0x0000000F = .illegal .reservedOpcode ∧ decode 0x00000012 = .illegal .reservedBitsSet ∧
  decode 0x80000001 = .illegal .reservedBitsSet

/-- 30_encoding.md R87 and R85: the decoder is total and unambiguous, and each row of the table is the
pair of the command's word and the mask 0xFFFFFFFF. -/
def Obligations.DecoderTotalAndUnambiguous : Prop :=
  encode .block = 0x00000001 ∧ encode .xor = 0x00000002 ∧
  encode .kstream = 0x00000003 ∧ encode .ctrinc = 0x00000004 ∧
  ∀ w : Word,
    (∀ i, decode w = .command i ↔ w &&& 0xFFFFFFFF = encode i) ∧
    ((∃ r, decode w = .illegal r) ↔
      w ≠ 0x00000001 ∧ w ≠ 0x00000002 ∧ w ≠ 0x00000003 ∧ w ≠ 0x00000004)

/-! ### A step runs the command that HOST writes -/

/-- 30_encoding.md R84: a HOST write of a legal word at a CMD address is `exec` of the command it decodes
as. That the turn is taken out of the schedule, and that ENGINE's micro-steps are later steps, is the
model's choice (log 1, 18). -/
def Obligations.StepRunsWrittenCommand : Prop :=
  ∀ (s : State) (addr : Nat) (w : Word) (i : Instr) (rest : List Turn),
    s.schedule = .host (.wr addr w) :: rest → regAt s.platform addr = some .cmd →
    decode w = .command i → step s = exec i { s with schedule := rest }

/-- The instruction that the host places with `withFetchWord` is run by the very next step, in every
state. The placing is the model's choice (log 2). -/
def Obligations.FetchedWordRuns : Prop :=
  ∀ (s : State) (nbits w : Nat) (i : Instr),
    decodeTableWord nbits w = some i → step (s.withFetchWord nbits w) = exec i s

/-- 30_encoding.md R84, 60_exceptions.md R201 and R202: an illegal word is dropped while BUSY, and else
rejected in the same step with STATUS = 0x00000104. -/
def Obligations.IllegalWordRejected : Prop :=
  ∀ (s : State) (addr : Nat) (w : Word) (r : DecodeReject) (rest : List Turn),
    s.schedule = .host (.wr addr w) :: rest → regAt s.platform addr = some .cmd →
    decode w = .illegal r →
    (s.phase ≠ .idle → step s = .next { s with schedule := rest, ign := true }) ∧
    (s.phase = .idle → ∃ t, step s = .next t ∧ statusWord t = 0x00000104 ∧
      t = { s with
        schedule := rest, done := false, err := true, ovf := false, ign := false
        ecode := .illegalCmd, bytes := 0 })

/-! ### Accept (30_encoding.md R84) -/

/-- BLOCK is accepted when `DST + 64 ≤ 2^P_ADDR_W`, whatever SRC and LEN are. -/
def Obligations.BlockAccepted : Prop :=
  ∀ s : State, s.phase = .idle → s.dst.toNat + 64 ≤ 2 ^ s.platform.addrW →
    exec .block s = .next { s with
      done := false, err := false, ovf := false, ign := false, ecode := .none, bytes := 0
      op := some .block, rnd := 0, off := 0, j := 0, wlen := 0, ec := .none, phase := .init }

/-- XOR and KSTREAM are accepted when their ranges fit, and go to WIPE when LEN = 0, else to INIT. -/
def Obligations.StreamsAccepted : Prop :=
  ∀ s : State, s.phase = .idle → s.dst.toNat + s.len.toNat ≤ 2 ^ s.platform.addrW →
    (s.src.toNat + s.len.toNat ≤ 2 ^ s.platform.addrW →
      exec .xor s = .next { s with
        done := false, err := false, ovf := false, ign := false, ecode := .none, bytes := 0
        op := some .xor, rnd := 0, off := 0, j := 0, wlen := 0, ec := .none
        phase := if s.len.toNat = 0 then .wipe else .init }) ∧
    exec .kstream s = .next { s with
      done := false, err := false, ovf := false, ign := false, ecode := .none, bytes := 0
      op := some .kstream, rnd := 0, off := 0, j := 0, wlen := 0, ec := .none
      phase := if s.len.toNat = 0 then .wipe else .init }

/-- CTRINC is accepted in every idle state, and goes to INC. -/
def Obligations.CtrincAccepted : Prop :=
  ∀ s : State, s.phase = .idle →
    exec .ctrinc s = .next { s with
      done := false, err := false, ovf := false, ign := false, ecode := .none, bytes := 0
      op := some .ctrinc, rnd := 0, off := 0, j := 0, wlen := 0, ec := .none, phase := .inc }

/-- 60_exceptions.md R200 and R201: a command whose range does not fit is rejected in the same step with
STATUS = 0x00000204, and CTRINC never is. -/
def Obligations.RangeRejected : Prop :=
  ∀ (s : State) (i : Instr), s.phase = .idle →
    ((i = .block ∧ 2 ^ s.platform.addrW < s.dst.toNat + 64) ∨
      (i = .xor ∧ (2 ^ s.platform.addrW < s.src.toNat + s.len.toNat ∨
        2 ^ s.platform.addrW < s.dst.toNat + s.len.toNat)) ∨
      (i = .kstream ∧ 2 ^ s.platform.addrW < s.dst.toNat + s.len.toNat)) →
    ∃ t, exec i s = .next t ∧ statusWord t = 0x00000204 ∧
      t = { s with
        done := false, err := true, ovf := false, ign := false, ecode := .range, bytes := 0 }

/-- The frame of a CMD write of any command: it writes STATUS, BYTES and the sequencer alone, and while
BUSY only IGN (60_exceptions.md R202 (1)). -/
def Obligations.CommandWriteFrame : Prop :=
  ∀ (s t : State) (i : Instr), exec i s = .next t →
    t.key = s.key ∧ t.nc = s.nc ∧ t.sfile = s.sfile ∧ t.xfile = s.xfile ∧ t.ks = s.ks ∧ t.ie = s.ie ∧
    t.src = s.src ∧ t.dst = s.dst ∧ t.len = s.len ∧ t.platform = s.platform ∧
    t.schedule = s.schedule ∧ t.trace = s.trace ∧ (∀ a, memRead t.mem a = memRead s.mem a) ∧
    (s.phase ≠ .idle → t = { s with ign := true })

/-! ### Whole commands -/

/-- 41_block_function.md R128 and R129: BLOCK ends after exactly 87 ENGINE micro-steps, with the 64
bytes of BLOCKFN at DST written in ascending order and nothing read, NC unchanged, BYTES = 64 and
STATUS = DONE only. -/
def Obligations.BlockWholeCommand : Prop :=
  ∀ s : State, s.phase = .idle → s.dst.toNat + 64 ≤ 2 ^ s.platform.addrW →
    ∃ t u, exec .block s = .next t ∧ EndsAfter 87 t u ∧ CommandEnd s u ∧ u.nc = s.nc ∧
      u.bytes = 64 ∧ statusWord u = 0x00000002 ∧
      (∀ j < 64, memRead u.mem (s.dst.toNat + j) = blockFn s.key s.nc j) ∧
      (∀ a, a < s.dst.toNat ∨ s.dst.toNat + 64 ≤ a → memRead u.mem a = memRead s.mem a) ∧
      u.trace = writeTrace s (blockFn s.key s.nc) 64

/-- 42_counter.md R145: CTRINC ends after exactly 2 ENGINE micro-steps with NC[0] + 1, DONE, or, from
0xFFFFFFFF, with NC[0] = 0 and ERR, OVF and ECODE = 3. -/
def Obligations.CtrincWholeCommand : Prop :=
  ∀ s : State, s.phase = .idle →
    ∃ t u, exec .ctrinc s = .next t ∧ EndsAfter 2 t u ∧ CommandEnd s u ∧
      u.nc = s.nc.set 0 (s.nc[0] + 1) ∧ u.bytes = 0 ∧ u.mem = s.mem ∧ u.trace = s.trace ∧
      statusWord u = if s.nc[0] = 0xFFFFFFFF then 0x0000030C else 0x00000002

/-- 43_stream_xor.md R166, R175, R176 and 20_memory.md R68, for every placement of SRC and DST: XOR
runs byte by byte, each input byte read just before its output byte is written, and cuts off at the
counter overflow. -/
def Obligations.XorWholeCommand : Prop :=
  ∀ s : State, s.phase = .idle → s.src.toNat + s.len.toNat ≤ 2 ^ s.platform.addrW →
    s.dst.toNat + s.len.toNat ≤ 2 ^ s.platform.addrW →
    ∃ t u, exec .xor s = .next t ∧
      EndsAfter (23 * windows (streamBytes s) + streamBytes s + 1) t u ∧ CommandEnd s u ∧
      u.mem = xorMemory s (streamBytes s) ∧ u.trace = xorTrace s (streamBytes s) ∧
      (∀ a, a < s.dst.toNat ∨ s.dst.toNat + streamBytes s ≤ a → memRead u.mem a = memRead s.mem a) ∧
      u.bytes.toNat = streamBytes s ∧ u.nc = ncAt s.nc (windows (streamBytes s)) ∧
      statusWord u = streamStatus s

/-- 43_stream_xor.md R172: the closed form of XOR, wherever the output does not run into input still to
be read (20_memory.md R78: it covers DST < SRC < DST + LEN too), and of KSTREAM, whose input bytes count
as 0 (R165, R167). R170 and R175: DONE exactly where the counter does not overflow. -/
def Obligations.StreamClosedForm : Prop :=
  ∀ (s : State) (i : Instr), s.phase = .idle → s.dst.toNat + s.len.toNat ≤ 2 ^ s.platform.addrW →
    (i = .kstream ∨
      i = .xor ∧ s.src.toNat + s.len.toNat ≤ 2 ^ s.platform.addrW ∧ ¬OutputRunsIntoInput s) →
    ∃ u, Completes i s u ∧
      u.bytes.toNat = min s.len.toNat (64 * (2 ^ 32 - s.nc[0].toNat)) ∧
      (∀ o < u.bytes.toNat, memRead u.mem (s.dst.toNat + o) =
        (if i = .xor then memRead s.mem (s.src.toNat + o) else 0) ^^^
          blockFn s.key (ncAt s.nc (o / 64)) (o % 64)) ∧
      (∀ a, a < s.dst.toNat ∨ s.dst.toNat + u.bytes.toNat ≤ a → memRead u.mem a = memRead s.mem a) ∧
      u.nc[0].toNat = (s.nc[0].toNat + windows u.bytes.toNat) % 2 ^ 32 ∧
      (u.err = true ∧ u.ovf = true ∧ u.ecode = .ctrOverflow ↔
        2 ^ 32 - 1 < s.nc[0].toNat + windows s.len.toNat) ∧
      (u.done = true ↔ s.nc[0].toNat + windows s.len.toNat ≤ 2 ^ 32 - 1)

/-- 20_memory.md R78, third case: when SRC < DST < SRC + LEN, output byte o from offset DST - SRC on
XORs the output byte written DST - SRC earlier. -/
def Obligations.XorForwardOverlap : Prop :=
  ∀ s : State, s.phase = .idle → s.src.toNat + s.len.toNat ≤ 2 ^ s.platform.addrW →
    s.dst.toNat + s.len.toNat ≤ 2 ^ s.platform.addrW → OutputRunsIntoInput s →
    ∃ u, Completes .xor s u ∧
      ∀ o < u.bytes.toNat, memRead u.mem (s.dst.toNat + o) =
        (if o < s.dst.toNat - s.src.toNat then memRead s.mem (s.src.toNat + o)
          else memRead u.mem (s.dst.toNat + (o - (s.dst.toNat - s.src.toNat)))) ^^^ keystream s o

/-- 43_stream_xor.md R167, R172, R175 and R176: the closed form of KSTREAM, which reads no memory and
ignores SRC. -/
def Obligations.KstreamWholeCommand : Prop :=
  ∀ s : State, s.phase = .idle → s.dst.toNat + s.len.toNat ≤ 2 ^ s.platform.addrW →
    ∃ t u, exec .kstream s = .next t ∧
      EndsAfter (23 * windows (streamBytes s) + streamBytes s + 1) t u ∧ CommandEnd s u ∧
      (∀ o < streamBytes s, memRead u.mem (s.dst.toNat + o) =
        blockFn s.key (ncAt s.nc (o / 64)) (o % 64)) ∧
      (∀ a, a < s.dst.toNat ∨ s.dst.toNat + streamBytes s ≤ a → memRead u.mem a = memRead s.mem a) ∧
      u.trace = writeTrace s (keystream s) (streamBytes s) ∧
      u.bytes.toNat = streamBytes s ∧ u.nc = ncAt s.nc (windows (streamBytes s)) ∧
      statusWord u = streamStatus s

/-- 43_stream_xor.md R168: a stream of length 0 takes one micro-step, touches no memory and no NC word,
and ends with BYTES = 0 and DONE. -/
def Obligations.ZeroLengthStream : Prop :=
  ∀ (s : State) (i : Instr),
    i = .kstream ∨ (i = .xor ∧ s.src.toNat ≤ 2 ^ s.platform.addrW) → s.phase = .idle → s.len = 0 →
    s.dst.toNat ≤ 2 ^ s.platform.addrW →
    ∃ t u, exec i s = .next t ∧ t.phase = .wipe ∧ EndsAfter 1 t u ∧ u.mem = s.mem ∧ u.trace = s.trace ∧ u.nc = s.nc ∧
      u.bytes = 0 ∧ u.done = true ∧ statusWord u = 0x00000002

/-- 43_stream_xor.md R165: KSTREAM leaves the same bytes as XOR over a zero-filled input. -/
def Obligations.KstreamIsXorOfZeros : Prop :=
  ∀ s : State, s.phase = .idle → s.src.toNat + s.len.toNat ≤ 2 ^ s.platform.addrW →
    s.dst.toNat + s.len.toNat ≤ 2 ^ s.platform.addrW → ¬OutputRunsIntoInput s →
    (∀ o < s.len.toNat, memRead s.mem (s.src.toNat + o) = 0) →
    ∃ u v, Completes .kstream s u ∧ Completes .xor s v ∧ u.nc = v.nc ∧ u.bytes = v.bytes ∧
      ∀ a, memRead u.mem a = memRead v.mem a

/-- 43_stream_xor.md R173: a stream split at a multiple of 64 leaves the same memory and counter as the
whole stream. -/
def Obligations.ChunkedStreamEqualsWhole : Prop :=
  ∀ (s : State) (k : Nat), s.platform.wellFormed = true → s.phase = .idle →
    s.src.toNat + s.len.toNat ≤ 2 ^ s.platform.addrW →
    s.dst.toNat + s.len.toNat ≤ 2 ^ s.platform.addrW → 64 * k ≤ s.len.toNat →
    s.nc[0].toNat + k ≤ 2 ^ 32 - 1 →
    ∃ u v w,
      Completes .xor { s with len := BitVec.ofNat 32 (64 * k) } u ∧ u.done = true ∧
      Completes .xor { u with
        src := s.src + BitVec.ofNat 32 (64 * k)
        dst := s.dst + BitVec.ofNat 32 (64 * k)
        len := s.len - BitVec.ofNat 32 (64 * k) } v ∧
      Completes .xor s w ∧ v.mem = w.mem ∧ v.nc = w.nc ∧ statusWord v = statusWord w

/-- 43_stream_xor.md R174: XOR of the output, from the same counter, to any place `d` that does not run
into it, gives back every byte that the first command processed: all of the input exactly when it ended
without overflow. -/
def Obligations.XorTwiceGivesInputBack : Prop :=
  ∀ (s : State) (d : Word), s.phase = .idle → s.src.toNat + s.len.toNat ≤ 2 ^ s.platform.addrW →
    s.dst.toNat + s.len.toNat ≤ 2 ^ s.platform.addrW → d.toNat + s.len.toNat ≤ 2 ^ s.platform.addrW →
    ¬OutputRunsIntoInput s → ¬OutputRunsIntoInput { s with src := s.dst, dst := d } →
    ∃ u v, Completes .xor s u ∧ Completes .xor { u with nc := s.nc, src := s.dst, dst := d } v ∧
      (∀ o < u.bytes.toNat, memRead v.mem (d.toNat + o) = memRead s.mem (s.src.toNat + o)) ∧
      (u.done = true → u.bytes = s.len) ∧
      (u.done = true ↔ s.nc[0].toNat + windows s.len.toNat ≤ 2 ^ 32 - 1)

/-- 42_counter.md R144 and 43_stream_xor.md R177: a stream that ends with DONE has moved the counter up
by one per window, with no wrap. -/
def Obligations.CounterStrictlyIncreases : Prop :=
  ∀ (s u : State) (i : Instr), i = .xor ∨ i = .kstream → s.phase = .idle →
    rangeOk i s = true → Completes i s u → u.done = true →
    u.nc[0].toNat = s.nc[0].toNat + windows s.len.toNat

/-! ### Micro-steps -/

/-- 41_block_function.md R121: INIT. -/
def Obligations.InitMicroStep : Prop :=
  ∀ s : State, s.phase = .init →
    ∃ w : Vector Word 16, (∀ i : Fin 4, w[i.val] = sigma[i]) ∧ (∀ i : Fin 8, w[4 + i.val] = s.key[i]) ∧
      (∀ i : Fin 4, w[12 + i.val] = s.nc[i]) ∧
      engineStep s = .next { s with sfile := w, xfile := w, rnd := 0, phase := .round }

/-- 40_quarter_round.md R104 and R105: ROUND, the column groups when RND is even, else the diagonal
groups. -/
def Obligations.RoundMicroStep : Prop :=
  ∀ s : State, s.phase = .round → s.rnd < 20 →
    engineStep s = .next { s with
      xfile := if s.rnd % 2 = 0 then columnGroups.foldl qrAt s.xfile else diagonalGroups.foldl qrAt s.xfile
      rnd := s.rnd + 1
      phase := if s.rnd = 19 then .feed else .round }

/-- 41_block_function.md R124: FEED. -/
def Obligations.FeedMicroStep : Prop :=
  ∀ s : State, s.phase = .feed → s.op = some .block ∨ s.op = some .xor ∨ s.op = some .kstream →
    ∃ w : Vector Word 16, (∀ i : Fin 16, w[i] = s.xfile[i] + s.sfile[i]) ∧
      engineStep s = .next { s with
        ks := w, j := 0, phase := .emit
        wlen := if s.op = some .block then 64 else min 64 (s.len.toNat - s.off.toNat) }

/-- 43_stream_xor.md R163: EMIT, for each command that has one, at the addresses that R163 gives. -/
def Obligations.EmitMicroStep : Prop :=
  ∀ s : State, s.phase = .emit → s.j < s.wlen → s.wlen ≤ 64 →
    (s.op = some .block → s.dst.toNat + s.j < 2 ^ s.platform.addrW →
      engineStep s = .next { s with
        mem := memWrite s.mem (s.dst.toNat + s.j) (ser s.ks s.j)
        trace := .engineWrite (s.dst.toNat + s.j) (ser s.ks s.j) :: s.trace
        bytes := s.bytes + 1, j := s.j + 1, phase := if s.j + 1 = s.wlen then .wipe else .emit }) ∧
    (s.op = some .xor → s.src.toNat + s.off.toNat + s.j < 2 ^ s.platform.addrW →
      s.dst.toNat + s.off.toNat + s.j < 2 ^ s.platform.addrW →
      ∃ v, v = memRead s.mem (s.src.toNat + s.off.toNat + s.j) ^^^ ser s.ks s.j ∧
        engineStep s = .next { s with
          mem := memWrite s.mem (s.dst.toNat + s.off.toNat + s.j) v
          trace := .engineWrite (s.dst.toNat + s.off.toNat + s.j) v ::
            .engineRead (s.src.toNat + s.off.toNat + s.j) :: s.trace
          bytes := s.bytes + 1, j := s.j + 1, phase := if s.j + 1 = s.wlen then .inc else .emit }) ∧
    (s.op = some .kstream → s.dst.toNat + s.off.toNat + s.j < 2 ^ s.platform.addrW →
      engineStep s = .next { s with
        mem := memWrite s.mem (s.dst.toNat + s.off.toNat + s.j) (ser s.ks s.j)
        trace := .engineWrite (s.dst.toNat + s.off.toNat + s.j) (ser s.ks s.j) :: s.trace
        bytes := s.bytes + 1, j := s.j + 1, phase := if s.j + 1 = s.wlen then .inc else .emit })

/-- 42_counter.md R143: INC. -/
def Obligations.IncMicroStep : Prop :=
  ∀ s : State, s.phase = .inc → s.op = some .xor ∨ s.op = some .kstream ∨ s.op = some .ctrinc →
    ∃ t, t = { s with nc := s.nc.set 0 (s.nc[0] + 1), off := s.off + BitVec.ofNat 32 s.wlen } ∧
      (s.nc[0] = 0xFFFFFFFF → engineStep s = .next { t with ec := .ctrOverflow, phase := .wipe }) ∧
      (s.nc[0] ≠ 0xFFFFFFFF → s.op = some .ctrinc → engineStep s = .next { t with phase := .wipe }) ∧
      (s.nc[0] ≠ 0xFFFFFFFF → s.op ≠ some .ctrinc → engineStep s = .next { t with
        phase := if t.off.toNat < s.len.toNat then .init else .wipe })

/-- 43_stream_xor.md R170: WIPE. -/
def Obligations.WipeMicroStep : Prop :=
  ∀ s : State, s.phase = .wipe →
    ∃ t, engineStep s = .next t ∧ t.busy = false ∧
      (∀ i : Fin 16, t.ks[i] = 0 ∧ t.sfile[i] = 0 ∧ t.xfile[i] = 0) ∧
      (s.ec = .none → t.done = true ∧ t.err = s.err ∧ t.ecode = s.ecode ∧ t.ovf = s.ovf) ∧
      (s.ec ≠ .none → t.done = s.done ∧ t.err = true ∧ t.ecode = s.ec ∧
        (s.ec = .ctrOverflow → t.ovf = true) ∧ (s.ec ≠ .ctrOverflow → t.ovf = s.ovf)) ∧
      t = { s with
        ks := t.ks, sfile := t.sfile, xfile := t.xfile, done := t.done, err := t.err, ecode := t.ecode
        ovf := t.ovf, op := none, rnd := 0, off := 0, j := 0, wlen := 0, ec := .none, phase := .idle }

/-- 00_scope.md R9 and R10, 60_exceptions.md R217 and 70_reset_and_hazards.md R232: on ENGINE's turn the
step is ENGINE's micro-step, busy or idle; while idle ENGINE takes none, and the machine keeps its state.
That turns stand in a schedule, and that an empty one is ENGINE's turn, is the model's choice (log 1). -/
def Obligations.IdleEngineKeepsState : Prop :=
  ∀ s : State,
    (s.schedule = [] → step s = engineStep s) ∧
    (∀ rest, s.schedule = .engine :: rest → step s = engineStep { s with schedule := rest }) ∧
    (s.phase = .idle →
      (s.schedule = [] → step s = .next s) ∧
      ∀ rest, s.schedule = .engine :: rest → step s = .next { s with schedule := rest })

/-! ### Datapath -/

/-- 40_quarter_round.md R103: QR, every round and the 20-round permutation are bijections. -/
def Obligations.MixingIsBijective : Prop :=
  Function.Bijective (fun v : Word × Word × Word × Word => qr v.1 v.2.1 v.2.2.1 v.2.2.2) ∧
  (∀ r, Function.Bijective fun x => roundFn x r) ∧ Function.Bijective permute

/-- 40_quarter_round.md R107: the lane view of a round. -/
def Obligations.RoundLanes : Prop :=
  ∀ (x : Vector Word 16) (i : Fin 4),
    (let y := roundFn x 0
     (y[i.val], y[4 + i.val], y[8 + i.val], y[12 + i.val]) =
      qr x[i.val] x[4 + i.val] x[8 + i.val] x[12 + i.val]) ∧
    (let y := roundFn x 1
     (y[i.val], y[4 + (i.val + 1) % 4], y[8 + (i.val + 2) % 4], y[12 + (i.val + 3) % 4]) =
      qr x[i.val] x[4 + (i.val + 1) % 4] x[8 + (i.val + 2) % 4] x[12 + (i.val + 3) % 4])

/-- 40_quarter_round.md R106: the groups of a round are disjoint, so they can run in any order. -/
def Obligations.RoundOrderIsFree : Prop :=
  (∀ (r : Nat) (i : Fin 16),
    ((groupsOf r).flatMap fun (p, q, s, t) => [p, q, s, t]).count i = 1) ∧
  ∀ (r : Nat) (gs : List Group) (x : Vector Word 16),
    gs.Perm (groupsOf r) → gs.foldl qrAt x = roundFn x r

/-- 40_quarter_round.md R108 and R109: rounds 2k and 2k+1 make one DOUBLEROUND, a column round followed
by a diagonal round, and PERMUTE is DOUBLEROUND applied 10 times. -/
def Obligations.PermuteIsTenDoubleRounds : Prop :=
  ∀ x : Vector Word 16,
    doubleRound x = diagonalGroups.foldl qrAt (columnGroups.foldl qrAt x) ∧
    (∀ k, roundFn (roundFn x (2 * k)) (2 * k + 1) = doubleRound x) ∧ permute x = doubleRound^[10] x

/-- 40_quarter_round.md R109: the 20 ROUND micro-steps leave PERMUTE. -/
def Obligations.TwentyRoundsPermute : Prop :=
  ∀ s : State, s.phase = .round → s.rnd = 0 →
    engineRun 20 s = .next { s with xfile := permute s.xfile, rnd := 20, phase := .feed }

/-- 41_block_function.md R122, 10_state.md R21 and R22: the word loader at byte level. Packing and
unpacking the bytes of KEY and NC lose nothing, either way round (00_scope.md R13). -/
def Obligations.LoaderReadsBytes : Prop :=
  ∀ (kb : Vector Byte 32) (nb : Vector Byte 16) (key : Vector Word 8) (nc : Vector Word 4),
    (∀ k : Fin 32, keyByte (keyOfBytes kb) k = kb[k]) ∧ ncBytes (ncOfBytes nb) = nb ∧
    keyOfBytes (Vector.ofFn (keyByte key)) = key ∧ ncOfBytes (ncBytes nc) = nc ∧
    (∀ i : Fin 4, (initState (keyOfBytes kb) (ncOfBytes nb))[i.val] = sigma[i]) ∧
    (∀ i : Fin 8, (initState (keyOfBytes kb) (ncOfBytes nb))[4 + i.val] =
      le32 kb[4 * i.val] kb[4 * i.val + 1] kb[4 * i.val + 2] kb[4 * i.val + 3]) ∧
    ∀ i : Fin 4, (initState (keyOfBytes kb) (ncOfBytes nb))[12 + i.val] =
      le32 nb[4 * i.val] nb[4 * i.val + 1] nb[4 * i.val + 2] nb[4 * i.val + 3]

/-- 41_block_function.md R125: word i of KS is bytes 4i to 4i+3 of the block, low byte first. -/
def Obligations.SerializerLayout : Prop :=
  ∀ (ks : Vector Word 16) (i : Fin 16) (k : Fin 4),
    ser ks (4 * i.val + k.val) = ks[i].extractLsb' (8 * k.val) 8 ∧
    le32 (ser ks (4 * i.val)) (ser ks (4 * i.val + 1)) (ser ks (4 * i.val + 2)) (ser ks (4 * i.val + 3)) =
      ks[i]

/-- 42_counter.md R140: `CTR_INC` adds 1 to the little-endian number in its sub-range, its overflow bit
is the carry out, and no other byte changes. R141 and R148: on NC it is the 32-bit increment of NC[0],
overflowing from 0xFFFFFFFF alone, and the nonce words never change. -/
def Obligations.CounterIncrement : Prop :=
  (∀ (nb : Vector Byte 16) (off len : Nat), off + len ≤ 16 →
    leValue (ctrInc nb off len).1 off len + (ctrInc nb off len).2.toNat * 256 ^ len =
      leValue nb off len + 1 ∧
    ∀ k : Fin 16, k.val < off ∨ off + len ≤ k.val → (ctrInc nb off len).1[k] = nb[k]) ∧
  ∀ nc : Vector Word 4,
    (incNc nc).1 = nc.set 0 (nc[0] + 1) ∧ (incNc nc).2 = decide (nc[0] = 0xFFFFFFFF) ∧
    (incNc nc).1[1] = nc[1] ∧ (incNc nc).1[2] = nc[2] ∧ (incNc nc).1[3] = nc[3]

/-! ### Registers, STATUS and IRQ -/

/-- 10_state.md R29: the layout of STATUS. -/
def Obligations.StatusLayout : Prop :=
  ∀ s : State,
    (statusWord s).getLsbD 0 = decide (s.phase ≠ .idle) ∧ (statusWord s).getLsbD 1 = s.done ∧
    (statusWord s).getLsbD 2 = s.err ∧ (statusWord s).getLsbD 3 = s.ovf ∧
    (statusWord s).getLsbD 4 = s.ign ∧ (statusWord s).extractLsb' 8 4 = s.ecode.code ∧
    statusWord s &&& statusReserved = 0

/-- 10_state.md R29: a HOST write to STATUS clears what it names with a 1, ECODE with ERR, and changes
nothing else, BUSY or not. -/
def Obligations.StatusWriteOneToClear : Prop :=
  ∀ (s : State) (addr : Nat) (w : Word) (rest : List Turn), s.schedule = .host (.wr addr w) :: rest →
    regAt s.platform addr = some .status →
    ∃ t, step s = .next t ∧
      t = { s with
        schedule := rest, done := t.done, err := t.err, ovf := t.ovf, ign := t.ign, ecode := t.ecode } ∧
      t.done = (if w.getLsbD 1 then false else s.done) ∧
      t.err = (if w.getLsbD 2 then false else s.err) ∧
      t.ecode = (if w.getLsbD 2 then .none else s.ecode) ∧
      t.ovf = (if w.getLsbD 3 then false else s.ovf) ∧
      t.ign = (if w.getLsbD 4 then false else s.ign)

/-- 10_state.md R32: the drop rule, at every address that selects a register. -/
def Obligations.DropRule : Prop :=
  ∀ (s : State) (addr : Nat) (r : Reg) (w : Word) (rest : List Turn),
    s.schedule = .host (.wr addr w) :: rest → regAt s.platform addr = some r →
    (r.dropped = true → s.phase ≠ .idle → step s = .next { s with schedule := rest, ign := true }) ∧
    (r.ignored = true → step s = .next { s with schedule := rest }) ∧
    (r = .status → step s = .next (writeStatus w { s with schedule := rest })) ∧
    (r = .cfg → step s = .next { s with schedule := rest, ie := w.getLsbD 0 })

/-- 10_state.md R21, R22, R30 and R31: register writes that are taken. -/
def Obligations.RegisterWritesTaken : Prop :=
  ∀ (s : State) (addr : Nat) (w : Word) (rest : List Turn), s.schedule = .host (.wr addr w) :: rest →
    (regAt s.platform addr = some .cfg → step s = .next { s with schedule := rest, ie := w.getLsbD 0 }) ∧
    (s.phase = .idle →
      (regAt s.platform addr = some .src → step s = .next { s with schedule := rest, src := w }) ∧
      (regAt s.platform addr = some .dst → step s = .next { s with schedule := rest, dst := w }) ∧
      (regAt s.platform addr = some .len → step s = .next { s with schedule := rest, len := w }) ∧
      (∀ i : Fin 8, regAt s.platform addr = some (.key i) →
        step s = .next { s with schedule := rest, key := s.key.set i w }) ∧
      ∀ i : Fin 4, regAt s.platform addr = some (.nc i) →
        step s = .next { s with schedule := rest, nc := s.nc.set i w })

/-- 10_state.md R40, R27, R21, R28, R34 and R35: a register read has no effect but the value it returns,
BUSY or not. The value is seen in the trace, which is the model's own (log 11). -/
def Obligations.RegisterReads : Prop :=
  ∀ (s : State) (addr : Nat) (r : Reg) (rest : List Turn), s.schedule = .host (.rd addr) :: rest →
    regAt s.platform addr = some r →
    ∃ v, step s = .next { s with schedule := rest, trace := .hostRegRead addr v :: s.trace } ∧
      (r = .cmd ∨ r = .reserved → v = 0) ∧ (∀ i, r = .key i → v = 0) ∧
      (r = .status → v = statusWord s) ∧ (r = .cfg → v = if s.ie then 1 else 0) ∧
      (r = .src → v = s.src) ∧ (r = .dst → v = s.dst) ∧ (r = .len → v = s.len) ∧
      (r = .bytes → v = s.bytes) ∧ (∀ i : Fin 4, r = .nc i → v = s.nc[i]) ∧
      ∀ i : Fin 16, r = .ksw i → v = s.ks[i]

/-- 10_state.md R27 and R35, 20_memory.md R66: the register window, `addr[1:0]` ignored. That an address
outside its 256 bytes selects no register is the model's choice (log 8). -/
def Obligations.WindowLayout : Prop :=
  ∀ p : Platform,
    (∀ (r : Reg) (k : Fin 4), regAt p (p.regBase + r.offset + k.val) = some r) ∧
    (∀ off, (0x1C ≤ off ∧ off < 0x20) ∨ (0x50 ≤ off ∧ off < 0x80) ∨ (0xC0 ≤ off ∧ off < 0x100) →
      regAt p (p.regBase + off) = some .reserved) ∧
    ∀ addr, addr < p.regBase ∨ p.regBase + 256 ≤ addr → regAt p addr = none

/-- 20_memory.md R66: a register access of another width is refused. The refusal of an access outside
the window is the model's own (log 8). -/
def Obligations.BadRegisterAccessRefused : Prop :=
  ∀ (s : State) (addr : Nat) (w : Word) (width : OtherWidth) (rest : List Turn),
    (s.schedule = .host (.regOther width addr) :: rest → step s = .refused (.registerAccessWidth addr)) ∧
    (addr < s.platform.regBase ∨ s.platform.regBase + 256 ≤ addr →
      (s.schedule = .host (.wr addr w) :: rest → step s = .refused (.outsideRegisterWindow addr)) ∧
      (s.schedule = .host (.rd addr) :: rest → step s = .refused (.outsideRegisterWindow addr)))

/-- 10_state.md R38: IRQ is IE and (DONE or ERR) in every state. 60_exceptions.md R210 and R211: it is
low while a command runs and rises, with IE = 1, in the WIPE micro-step that clears BUSY, or in the CMD
write of a rejected command (R201); it falls at an accept, at a write-one-to-clear of DONE and ERR, and
when IE is cleared. -/
def Obligations.IrqRisesWithCompletion : Prop :=
  (∀ s : State, s.irq = (s.ie && ((statusWord s).getLsbD 1 || (statusWord s).getLsbD 2))) ∧
  (∀ s : State, ControlInv s → s.phase ≠ .idle →
    s.irq = false ∧ ∀ t, engineStep s = .next t → t.irq = (s.ie && decide (t.phase = .idle))) ∧
  ∀ (s : State) (addr : Nat) (w : Word) (rest : List Turn), s.schedule = .host (.wr addr w) :: rest →
    (regAt s.platform addr = some .cmd → s.phase = .idle →
      ((∀ i, decode w = .command i → rangeOk i s = false) → ∃ t, step s = .next t ∧ t.irq = s.ie) ∧
      ∀ i, decode w = .command i → rangeOk i s = true → ∃ t, step s = .next t ∧ t.irq = false) ∧
    (regAt s.platform addr = some .status →
      ∃ t, step s = .next t ∧ t.irq = (s.ie && ((s.done && !w.getLsbD 1) || (s.err && !w.getLsbD 2)))) ∧
    (regAt s.platform addr = some .cfg →
      ∃ t, step s = .next t ∧ t.irq = (w.getLsbD 0 && (s.done || s.err)))

/-! ### Reset -/

/-- 10_state.md R41: the reset values. -/
def Obligations.ResetValues : Prop :=
  (∀ i : Fin 8, State.reset.key[i] = 0) ∧ (∀ i : Fin 4, State.reset.nc[i] = 0) ∧
  (∀ i : Fin 16, State.reset.sfile[i] = 0 ∧ State.reset.xfile[i] = 0 ∧ State.reset.ks[i] = 0) ∧
  (∀ r, readReg r State.reset = 0) ∧ State.reset.phase = .idle ∧ State.reset.op = none ∧
  State.reset.rnd = 0 ∧ State.reset.off = 0 ∧ State.reset.j = 0 ∧ State.reset.wlen = 0 ∧
  State.reset.ec = .none ∧ State.reset.irq = false

/-- 70_reset_and_hazards.md R230 and R231: RESET at any point sets all of CC20's state to its reset
value, abandons a running command with no report, and keeps MEM. That the platform, the coming turns and
the trace are kept too is the model's reading (log 19). -/
def Obligations.ResetEvent : Prop :=
  ∀ (s : State) (rest : List Turn), s.schedule = .reset :: rest →
    ∃ t, step s = .next t ∧ t.busy = false ∧ t.irq = false ∧
      (∀ i : Fin 8, t.key[i] = 0) ∧ (∀ i : Fin 4, t.nc[i] = 0) ∧
      (∀ i : Fin 16, t.sfile[i] = 0 ∧ t.xfile[i] = 0 ∧ t.ks[i] = 0) ∧ (∀ r, readReg r t = 0) ∧
      t.phase = .idle ∧ t.op = none ∧ t.rnd = 0 ∧ t.off = 0 ∧ t.j = 0 ∧ t.wlen = 0 ∧ t.ec = .none ∧
      t.mem = s.mem ∧ t.platform = s.platform ∧ t.schedule = rest ∧ t.trace = s.trace

/-! ### Memory -/

/-- 20_memory.md R71 and R79: memory is its bytes by address. A byte reads as it was last written, a
write leaves every other byte alone, and equal contents are equal data: an overwritten value, the order
of writes to different addresses and the writing of a value already there leave no trace in MEM. -/
def Obligations.MemoryIsItsBytes : Prop :=
  ∀ (m : Memory) (a b : Nat) (v w : Byte), m.wf = true →
    (memWrite m a v).wf = true ∧
    memRead (memWrite m a v) b = (if b = a then v else memRead m b) ∧
    memWrite (memWrite m a v) a w = memWrite m a w ∧
    memWrite m a (memRead m a) = m ∧
    (a ≠ b → memWrite (memWrite m a v) b w = memWrite (memWrite m b w) a v)

/-- 20_memory.md R60 and 30_encoding.md R88: HOST's byte accesses, and 93_implementation_defined.md I9:
the fault at or above 2^P_ADDR_W, which for HOST is the model's reading (log 9). -/
def Obligations.HostByteAccess : Prop :=
  ∀ (s : State) (a : Nat) (v : Byte) (rest : List Turn),
    (s.schedule = .host (.mwr a v) :: rest →
      (a < 2 ^ s.platform.addrW → step s = .next { s with
        schedule := rest, mem := memWrite s.mem a v, trace := .hostMemWrite a v :: s.trace }) ∧
      (2 ^ s.platform.addrW ≤ a → step s = .fault (.memoryAddress a))) ∧
    (s.schedule = .host (.mrd a) :: rest →
      (a < 2 ^ s.platform.addrW → step s = .next { s with
        schedule := rest, trace := .hostMemRead a (memRead s.mem a) :: s.trace }) ∧
      (2 ^ s.platform.addrW ≤ a → step s = .fault (.memoryAddress a)))

/-- 20_memory.md R62, R71 and R79: in every step, each byte holds what the last recorded write stored,
or what it held before if nothing wrote it. The trace is the model's own (log 11). -/
def Obligations.TraceExplainsMemory : Prop :=
  ∀ s t : State, step s = .next t →
    ∃ es, t.trace = es ++ s.trace ∧ ∀ a, memRead t.mem a = (lastWrite es a).getD (memRead s.mem a)

/-! ### Whole-machine rules -/

/-- Both invariants hold at reset. -/
def Obligations.InvariantsHoldAtReset : Prop := ControlInv State.reset ∧ DataInv State.reset

/-- 10_state.md R36, R37, R43 and R29: every step, of any agent, keeps the control invariant, in which
BYTES = OFF + J is claimed of EMIT and INC alone (log 14). -/
def Obligations.StepKeepsControlInv : Prop := ∀ s t : State, ControlInv s → step s = .next t → ControlInv t

/-- 40_quarter_round.md R109, 41_block_function.md R121 and R126: every step, of any agent, keeps the
datapath invariant. -/
def Obligations.StepKeepsDataInv : Prop := ∀ s t : State, DataInv s → step s = .next t → DataInv t

/-- 20_memory.md R62, 93_implementation_defined.md I9 and 60_exceptions.md R200: ENGINE never faults, and
a step stops only for a HOST access that the port or memory does not have (the stops of log 8 and 9 are
the model's). -/
def Obligations.OnlyBadHostAccessStops : Prop :=
  ∀ s : State, ControlInv s →
    (∃ t, engineStep s = .next t) ∧
    ((∃ t, step s = .next t) ∨
      ∃ a addr rest, s.schedule = .host a :: rest ∧
        (((∃ v, a = .mwr addr v) ∨ a = .mrd addr) ∧ 2 ^ s.platform.addrW ≤ addr ∧
            step s = .fault (.memoryAddress addr) ∨
          ((∃ v, a = .wr addr v) ∨ a = .rd addr) ∧ regAt s.platform addr = none ∧
            step s = .refused (.outsideRegisterWindow addr) ∨
          (∃ width, a = .regOther width addr) ∧ step s = .refused (.registerAccessWidth addr)))

/-- 00_scope.md R10 and 70_reset_and_hazards.md R243: from every state of a running command, ENGINE
alone brings BUSY back to 0 within a bounded number of micro-steps. -/
def Obligations.EveryCommandEnds : Prop :=
  ∀ s : State, ControlInv s →
    ∃ n u, n ≤ max 87 (23 * windows s.len.toNat + s.len.toNat + 1) ∧ engineRun n s = .next u ∧ u.phase = .idle

/-- The frame of an ENGINE micro-step: KEY, NC[1..3], SRC, DST, LEN, CFG and IGN never change, and
memory changes only at EMIT's output address (10_state.md R21, R22, R31; 20_memory.md R68). -/
def Obligations.EngineFrame : Prop :=
  ∀ s t : State, engineStep s = .next t →
    t.key = s.key ∧ t.nc[1] = s.nc[1] ∧ t.nc[2] = s.nc[2] ∧ t.nc[3] = s.nc[3] ∧ t.src = s.src ∧
    t.dst = s.dst ∧ t.len = s.len ∧ t.ie = s.ie ∧ t.ign = s.ign ∧ t.platform = s.platform ∧
    t.schedule = s.schedule ∧ (s.phase ≠ .inc → t.nc = s.nc) ∧
    (s.phase ≠ .emit → ∀ a, memRead t.mem a = memRead s.mem a) ∧
    (s.phase = .emit → ∀ a, a ≠ (if s.op = some .block then blockAddr s else outputAddr s) →
      memRead t.mem a = memRead s.mem a)

/-- The frame of a HOST action: it never touches the word files, and while BUSY it changes only the
write-one-to-clear report, IGN, IE, MEM and the trace: no register that a command uses and nothing of the
sequencer (10_state.md R32, 20_memory.md R71, 60_exceptions.md R202). -/
def Obligations.HostFrame : Prop :=
  ∀ (a : HostAction) (s t : State), hostStep a s = .next t →
    t.sfile = s.sfile ∧ t.xfile = s.xfile ∧ t.ks = s.ks ∧ t.platform = s.platform ∧
    t.schedule = s.schedule ∧
    (s.phase ≠ .idle → t = { s with
      done := t.done, err := t.err, ovf := t.ovf, ign := t.ign, ecode := t.ecode, ie := t.ie
      mem := t.mem, trace := t.trace }) ∧
    ((∀ b v, a ≠ .mwr b v) → t.mem = s.mem)

/-- 20_memory.md R71 and R77: a HOST write to a byte that the next micro-step neither reads nor writes
commutes with it, but for the order of the two records in the trace. -/
def Obligations.HostWriteElsewhereCommutes : Prop :=
  ∀ (s s1 s2 : State) (a : Nat) (v : Byte), s.mem.wf = true →
    hostStep (.mwr a v) s = .next s1 → engineStep s1 = .next s2 →
    (s.phase = .emit → a ≠ (if s.op = some .block then blockAddr s else outputAddr s)) →
    (s.phase = .emit → s.op = some .xor → a ≠ inputAddr s) →
    ∃ t1 t2, engineStep s = .next t1 ∧ hostStep (.mwr a v) t1 = .next t2 ∧
      s2 = { t2 with trace := s2.trace }

/-- 43_stream_xor.md R170, 10_state.md R29 and R37: BUSY is cleared only by the WIPE micro-step or
RESET, and set only by a HOST write to CMD. -/
def Obligations.WhoMovesBusy : Prop :=
  ∀ s t : State, step s = .next t →
    (s.phase ≠ .idle → t.phase = .idle →
      (∃ rest, s.schedule = .reset :: rest) ∨
        s.phase = .wipe ∧ (s.schedule = [] ∨ ∃ rest, s.schedule = .engine :: rest)) ∧
    (s.phase = .idle → t.phase ≠ .idle →
      ∃ addr w rest i, s.schedule = .host (.wr addr w) :: rest ∧
        regAt s.platform addr = some .cmd ∧ decode w = .command i ∧ rangeOk i s = true)

/-- 30_encoding.md R89 and 10_state.md R21: the pseudo-operation `key`, run while idle, loads the key
bytes into KEY and changes nothing else. -/
def Obligations.KeyPseudoOperationLoadsKey : Prop :=
  ∀ (s : State) (kb : Vector Byte 32) (rest : List Turn), s.phase = .idle →
    s.schedule = pseudoKey s.platform kb ++ rest →
    Host.Core.run Sys2Proof.core 8 s = .next { s with key := keyOfBytes kb, schedule := rest }

/-- 10_state.md R21 (key confidentiality, 60_exceptions.md R212): no HOST action lets KEY out. From two
states that differ in KEY alone, the results differ in KEY alone. -/
def Obligations.HostCannotReadKey : Prop :=
  ∀ (a : HostAction) (s t : State) (k : Vector Word 8), hostStep a s = .next t →
    ∃ k', hostStep a { s with key := k } = .next { t with key := k' }
end

