-- ==== Sys2Proof/Laws/Memory.lean ====
section
/-! SUPPORT. Memory: what a byte write does to every byte, and that it keeps the canonical form. -/

namespace Sys2Proof.Machine

theorem memErase_cons_eq (m : Memory) (a : Nat) (v : Byte) : memErase ((a, v) :: m) a = memErase m a := by
  simp [memErase]

theorem memErase_cons_ne (m : Memory) {a k : Nat} (v : Byte) (h : k ≠ a) :
    memErase ((k, v) :: m) a = (k, v) :: memErase m a := by
  simp [memErase, h]

theorem memRead_memErase (m : Memory) (a b : Nat) :
    memRead (memErase m a) b = if b = a then unlistedByte else memRead m b := by
  induction m with
  | nil => simp [memErase, memRead]
  | cons c m ih =>
    obtain ⟨k, v⟩ := c
    by_cases hk : k = a
    · subst hk
      rw [memErase_cons_eq, ih]
      by_cases hb : b = k <;> simp [memRead, hb]
    · rw [memErase_cons_ne m v hk]
      by_cases hb : b = k
      · subst hb; simp [memRead, hk]
      · simp [memRead, hb, ih]

theorem memRead_memInsert (m : Memory) (a : Nat) (v : Byte) (b : Nat) :
    memRead (memInsert (memErase m a) a v) b = if b = a then v else memRead (memErase m a) b := by
  have key : ∀ l : Memory, (∀ c ∈ l, c.1 ≠ a) →
      memRead (memInsert l a v) b = if b = a then v else memRead l b := by
    intro l
    induction l with
    | nil => intro _; simp [memInsert, memRead]
    | cons c l ih =>
      obtain ⟨k, w⟩ := c
      intro h
      have hk : k ≠ a := h (k, w) (by simp)
      have hl := ih fun c hc => h c (by simp [hc])
      unfold memInsert
      split
      · simp [memRead]
      · by_cases hb : b = k
        · subst hb; simp [memRead, hk]
        · simp [memRead, hb, hl]
  exact key _ fun c hc => by simpa [memErase] using (List.mem_filter.1 hc).2

/-- Read after write (spec 20_memory.md R71), in every list, canonical or not. -/
theorem memRead_memWrite_eq (m : Memory) (a b : Nat) (v : Byte) :
    memRead (memWrite m a v) b = if b = a then v else memRead m b := by
  unfold memWrite
  split
  · next h => rw [memRead_memErase, h]
  · rw [memRead_memInsert, memRead_memErase]; split <;> rfl

@[simp] theorem memRead_memWrite_same (m : Memory) (a : Nat) (v : Byte) : memRead (memWrite m a v) a = v := by
  simp [memRead_memWrite_eq]

theorem memRead_memWrite_of_ne (m : Memory) {a b : Nat} (v : Byte) (h : b ≠ a) :
    memRead (memWrite m a v) b = memRead m b := by
  simp [memRead_memWrite_eq, h]

/-! ### The canonical form -/

theorem Memory.wfAbove_mono {lo hi : Nat} {m : Memory} (h : lo ≤ hi) (hm : Memory.wfAbove hi m = true) :
    Memory.wfAbove lo m = true := by
  cases m with
  | nil => rfl
  | cons c m =>
    obtain ⟨k, v⟩ := c
    simp only [Memory.wfAbove, Bool.and_eq_true, decide_eq_true_eq] at hm ⊢
    exact ⟨⟨by omega, hm.1.2⟩, hm.2⟩

theorem wfAbove_memErase (m : Memory) (a : Nat) :
    ∀ {lo : Nat}, Memory.wfAbove lo m = true → Memory.wfAbove lo (memErase m a) = true := by
  induction m with
  | nil => intro lo _; rfl
  | cons c m ih =>
    obtain ⟨k, v⟩ := c
    intro lo h
    simp only [Memory.wfAbove, Bool.and_eq_true, decide_eq_true_eq] at h
    have hm := ih h.2
    by_cases hk : k = a
    · subst hk
      rw [memErase_cons_eq]; exact Memory.wfAbove_mono (by omega) hm
    · rw [memErase_cons_ne m v hk]; simp [Memory.wfAbove, hm, h.1]

theorem wfAbove_memInsert (a : Nat) (v : Byte) (hv : v ≠ unlistedByte) :
    ∀ (m : Memory) {lo : Nat}, (∀ c ∈ m, c.1 ≠ a) → lo ≤ a → Memory.wfAbove lo m = true →
      Memory.wfAbove lo (memInsert m a v) = true := by
  intro m
  induction m with
  | nil => intro lo _ hlo _; simp [memInsert, Memory.wfAbove, hlo, hv]
  | cons c m ih =>
    obtain ⟨k, w⟩ := c
    intro lo hne hlo h
    simp only [Memory.wfAbove, Bool.and_eq_true, decide_eq_true_eq] at h
    have hk : k ≠ a := hne (k, w) (by simp)
    unfold memInsert
    split
    · next hlt => simp [Memory.wfAbove, hlo, hv, h.1.2, h.2]; omega
    · next hge =>
      have := ih (lo := k + 1) (fun c hc => hne c (by simp [hc])) (by omega) h.2
      simp [Memory.wfAbove, h.1, this]

/-- A byte write keeps the canonical form. -/
theorem memWrite_wf (m : Memory) (a : Nat) (v : Byte) (h : m.wf = true) : (memWrite m a v).wf = true := by
  unfold memWrite Memory.wf at *
  split
  · exact wfAbove_memErase m a h
  · next hv =>
    refine wfAbove_memInsert a v hv _ (fun c hc => ?_) (Nat.zero_le a) (wfAbove_memErase m a h)
    simpa [memErase] using (List.mem_filter.1 hc).2

theorem mem_memInsert {m : Memory} {a : Nat} {v : Byte} {c : Host.Cell} (h : c ∈ memInsert m a v) :
    c = (a, v) ∨ c ∈ m := by
  induction m with
  | nil => simpa [memInsert] using h
  | cons d m ih =>
    unfold memInsert at h
    split at h
    · simpa using h
    · rcases List.mem_cons.1 h with rfl | h
      · simp
      · rcases ih h with h | h <;> simp [h]

/-- A byte write within the address space keeps memory within it (spec 20_memory.md R60). -/
theorem memWrite_within (w : Nat) (m : Memory) (a : Nat) (v : Byte) (ha : a < 2 ^ w)
    (h : Memory.within w m = true) : Memory.within w (memWrite m a v) = true := by
  simp only [Memory.within, List.all_eq_true, decide_eq_true_eq] at h ⊢
  have herase : ∀ c ∈ memErase m a, c.1 < 2 ^ w := fun c hc => h c (List.mem_of_mem_filter hc)
  intro c hc
  unfold memWrite at hc
  split at hc
  · exact herase c hc
  · rcases mem_memInsert hc with rfl | hc
    · exact ha
    · exact herase c hc

theorem memRead_of_wfAbove {lo a : Nat} {m : Memory} (h : Memory.wfAbove lo m = true) (ha : a < lo) :
    memRead m a = unlistedByte := by
  induction m generalizing lo with
  | nil => rfl
  | cons c m ih =>
    obtain ⟨k, v⟩ := c
    simp only [Memory.wfAbove, Bool.and_eq_true, decide_eq_true_eq] at h
    have hk : a ≠ k := by omega
    simp [memRead, hk, ih h.2 (by omega)]

/-- Canonical memories that read alike are equal data. -/
theorem Memory.ext_of_wf {m n : Memory} (hm : m.wf = true) (hn : n.wf = true)
    (h : ∀ a, memRead m a = memRead n a) : m = n := by
  have key : ∀ (m n : Memory) (lo hi : Nat), Memory.wfAbove lo m = true → Memory.wfAbove hi n = true →
      (∀ a, memRead m a = memRead n a) → m = n := by
    intro m
    induction m with
    | nil =>
      intro n lo hi _ hn h
      cases n with
      | nil => rfl
      | cons d n =>
        obtain ⟨k, v⟩ := d
        simp only [Memory.wfAbove, Bool.and_eq_true, decide_eq_true_eq, bne_iff_ne] at hn
        exact absurd (by simpa [memRead] using (h k).symm) hn.1.2
    | cons c m ih =>
      obtain ⟨k, v⟩ := c
      intro n lo hi hm hn h
      cases n with
      | nil =>
        simp only [Memory.wfAbove, Bool.and_eq_true, decide_eq_true_eq, bne_iff_ne] at hm
        exact absurd (by simpa [memRead] using h k) hm.1.2
      | cons d n =>
        obtain ⟨l, w⟩ := d
        simp only [Memory.wfAbove, Bool.and_eq_true, decide_eq_true_eq, bne_iff_ne] at hm hn
        have hkl : k = l := by
          rcases Nat.lt_trichotomy k l with hlt | he | hgt
          · have := h k
            simp [memRead, Nat.ne_of_lt hlt, memRead_of_wfAbove hn.2 (by omega : k < l + 1)] at this
            exact absurd this hm.1.2
          · exact he
          · have := h l
            simp [memRead, Nat.ne_of_lt hgt, memRead_of_wfAbove hm.2 (by omega : l < k + 1)] at this
            exact absurd this.symm hn.1.2
        subst hkl
        have hv : v = w := by simpa [memRead] using h k
        subst hv
        rw [ih n (k + 1) (k + 1) hm.2 hn.2 fun a => ?_]
        have := h a
        by_cases ha : a = k
        · subst ha
          rw [memRead_of_wfAbove hm.2 (by omega), memRead_of_wfAbove hn.2 (by omega)]
        · simpa [memRead, ha] using this
  exact key m n 0 0 hm hn h

end Sys2Proof.Machine
end

