-- ==== Sys2Proof/Laws/State.lean ====
section
/-! SUPPORT. One lemma per field of each named update of State, so that no later proof unfolds a record
update. -/

namespace Sys2Proof.Machine

/-! ### `dropWrite` -/

@[simp] theorem dropWrite_key (s : State) : (dropWrite s).key = s.key := rfl
@[simp] theorem dropWrite_nc (s : State) : (dropWrite s).nc = s.nc := rfl
@[simp] theorem dropWrite_sfile (s : State) : (dropWrite s).sfile = s.sfile := rfl
@[simp] theorem dropWrite_xfile (s : State) : (dropWrite s).xfile = s.xfile := rfl
@[simp] theorem dropWrite_ks (s : State) : (dropWrite s).ks = s.ks := rfl
@[simp] theorem dropWrite_done (s : State) : (dropWrite s).done = s.done := rfl
@[simp] theorem dropWrite_err (s : State) : (dropWrite s).err = s.err := rfl
@[simp] theorem dropWrite_ovf (s : State) : (dropWrite s).ovf = s.ovf := rfl
@[simp] theorem dropWrite_ign (s : State) : (dropWrite s).ign = true := rfl
@[simp] theorem dropWrite_ecode (s : State) : (dropWrite s).ecode = s.ecode := rfl
@[simp] theorem dropWrite_ie (s : State) : (dropWrite s).ie = s.ie := rfl
@[simp] theorem dropWrite_src (s : State) : (dropWrite s).src = s.src := rfl
@[simp] theorem dropWrite_dst (s : State) : (dropWrite s).dst = s.dst := rfl
@[simp] theorem dropWrite_len (s : State) : (dropWrite s).len = s.len := rfl
@[simp] theorem dropWrite_bytes (s : State) : (dropWrite s).bytes = s.bytes := rfl
@[simp] theorem dropWrite_phase (s : State) : (dropWrite s).phase = s.phase := rfl
@[simp] theorem dropWrite_op (s : State) : (dropWrite s).op = s.op := rfl
@[simp] theorem dropWrite_rnd (s : State) : (dropWrite s).rnd = s.rnd := rfl
@[simp] theorem dropWrite_off (s : State) : (dropWrite s).off = s.off := rfl
@[simp] theorem dropWrite_j (s : State) : (dropWrite s).j = s.j := rfl
@[simp] theorem dropWrite_wlen (s : State) : (dropWrite s).wlen = s.wlen := rfl
@[simp] theorem dropWrite_ec (s : State) : (dropWrite s).ec = s.ec := rfl
@[simp] theorem dropWrite_mem (s : State) : (dropWrite s).mem = s.mem := rfl
@[simp] theorem dropWrite_platform (s : State) : (dropWrite s).platform = s.platform := rfl
@[simp] theorem dropWrite_schedule (s : State) : (dropWrite s).schedule = s.schedule := rfl
@[simp] theorem dropWrite_trace (s : State) : (dropWrite s).trace = s.trace := rfl

/-! ### `clearReport` -/

@[simp] theorem clearReport_key (s : State) : (clearReport s).key = s.key := rfl
@[simp] theorem clearReport_nc (s : State) : (clearReport s).nc = s.nc := rfl
@[simp] theorem clearReport_sfile (s : State) : (clearReport s).sfile = s.sfile := rfl
@[simp] theorem clearReport_xfile (s : State) : (clearReport s).xfile = s.xfile := rfl
@[simp] theorem clearReport_ks (s : State) : (clearReport s).ks = s.ks := rfl
@[simp] theorem clearReport_done (s : State) : (clearReport s).done = false := rfl
@[simp] theorem clearReport_err (s : State) : (clearReport s).err = false := rfl
@[simp] theorem clearReport_ovf (s : State) : (clearReport s).ovf = false := rfl
@[simp] theorem clearReport_ign (s : State) : (clearReport s).ign = false := rfl
@[simp] theorem clearReport_ecode (s : State) : (clearReport s).ecode = .none := rfl
@[simp] theorem clearReport_ie (s : State) : (clearReport s).ie = s.ie := rfl
@[simp] theorem clearReport_src (s : State) : (clearReport s).src = s.src := rfl
@[simp] theorem clearReport_dst (s : State) : (clearReport s).dst = s.dst := rfl
@[simp] theorem clearReport_len (s : State) : (clearReport s).len = s.len := rfl
@[simp] theorem clearReport_bytes (s : State) : (clearReport s).bytes = 0 := rfl
@[simp] theorem clearReport_phase (s : State) : (clearReport s).phase = s.phase := rfl
@[simp] theorem clearReport_op (s : State) : (clearReport s).op = s.op := rfl
@[simp] theorem clearReport_rnd (s : State) : (clearReport s).rnd = s.rnd := rfl
@[simp] theorem clearReport_off (s : State) : (clearReport s).off = s.off := rfl
@[simp] theorem clearReport_j (s : State) : (clearReport s).j = s.j := rfl
@[simp] theorem clearReport_wlen (s : State) : (clearReport s).wlen = s.wlen := rfl
@[simp] theorem clearReport_ec (s : State) : (clearReport s).ec = s.ec := rfl
@[simp] theorem clearReport_mem (s : State) : (clearReport s).mem = s.mem := rfl
@[simp] theorem clearReport_platform (s : State) : (clearReport s).platform = s.platform := rfl
@[simp] theorem clearReport_schedule (s : State) : (clearReport s).schedule = s.schedule := rfl
@[simp] theorem clearReport_trace (s : State) : (clearReport s).trace = s.trace := rfl

/-! ### `writeStatus` -/

@[simp] theorem writeStatus_key (w : Word) (s : State) : (writeStatus w s).key = s.key := rfl
@[simp] theorem writeStatus_nc (w : Word) (s : State) : (writeStatus w s).nc = s.nc := rfl
@[simp] theorem writeStatus_sfile (w : Word) (s : State) : (writeStatus w s).sfile = s.sfile := rfl
@[simp] theorem writeStatus_xfile (w : Word) (s : State) : (writeStatus w s).xfile = s.xfile := rfl
@[simp] theorem writeStatus_ks (w : Word) (s : State) : (writeStatus w s).ks = s.ks := rfl
@[simp] theorem writeStatus_done (w : Word) (s : State) : (writeStatus w s).done = (s.done && !w.getLsbD 1) := rfl
@[simp] theorem writeStatus_err (w : Word) (s : State) : (writeStatus w s).err = (s.err && !w.getLsbD 2) := rfl
@[simp] theorem writeStatus_ovf (w : Word) (s : State) : (writeStatus w s).ovf = (s.ovf && !w.getLsbD 3) := rfl
@[simp] theorem writeStatus_ign (w : Word) (s : State) : (writeStatus w s).ign = (s.ign && !w.getLsbD 4) := rfl
@[simp] theorem writeStatus_ecode (w : Word) (s : State) : (writeStatus w s).ecode = (if w.getLsbD 2 then .none else s.ecode) := rfl
@[simp] theorem writeStatus_ie (w : Word) (s : State) : (writeStatus w s).ie = s.ie := rfl
@[simp] theorem writeStatus_src (w : Word) (s : State) : (writeStatus w s).src = s.src := rfl
@[simp] theorem writeStatus_dst (w : Word) (s : State) : (writeStatus w s).dst = s.dst := rfl
@[simp] theorem writeStatus_len (w : Word) (s : State) : (writeStatus w s).len = s.len := rfl
@[simp] theorem writeStatus_bytes (w : Word) (s : State) : (writeStatus w s).bytes = s.bytes := rfl
@[simp] theorem writeStatus_phase (w : Word) (s : State) : (writeStatus w s).phase = s.phase := rfl
@[simp] theorem writeStatus_op (w : Word) (s : State) : (writeStatus w s).op = s.op := rfl
@[simp] theorem writeStatus_rnd (w : Word) (s : State) : (writeStatus w s).rnd = s.rnd := rfl
@[simp] theorem writeStatus_off (w : Word) (s : State) : (writeStatus w s).off = s.off := rfl
@[simp] theorem writeStatus_j (w : Word) (s : State) : (writeStatus w s).j = s.j := rfl
@[simp] theorem writeStatus_wlen (w : Word) (s : State) : (writeStatus w s).wlen = s.wlen := rfl
@[simp] theorem writeStatus_ec (w : Word) (s : State) : (writeStatus w s).ec = s.ec := rfl
@[simp] theorem writeStatus_mem (w : Word) (s : State) : (writeStatus w s).mem = s.mem := rfl
@[simp] theorem writeStatus_platform (w : Word) (s : State) : (writeStatus w s).platform = s.platform := rfl
@[simp] theorem writeStatus_schedule (w : Word) (s : State) : (writeStatus w s).schedule = s.schedule := rfl
@[simp] theorem writeStatus_trace (w : Word) (s : State) : (writeStatus w s).trace = s.trace := rfl

/-! ### `writeCfg` -/

@[simp] theorem writeCfg_key (w : Word) (s : State) : (writeCfg w s).key = s.key := rfl
@[simp] theorem writeCfg_nc (w : Word) (s : State) : (writeCfg w s).nc = s.nc := rfl
@[simp] theorem writeCfg_sfile (w : Word) (s : State) : (writeCfg w s).sfile = s.sfile := rfl
@[simp] theorem writeCfg_xfile (w : Word) (s : State) : (writeCfg w s).xfile = s.xfile := rfl
@[simp] theorem writeCfg_ks (w : Word) (s : State) : (writeCfg w s).ks = s.ks := rfl
@[simp] theorem writeCfg_done (w : Word) (s : State) : (writeCfg w s).done = s.done := rfl
@[simp] theorem writeCfg_err (w : Word) (s : State) : (writeCfg w s).err = s.err := rfl
@[simp] theorem writeCfg_ovf (w : Word) (s : State) : (writeCfg w s).ovf = s.ovf := rfl
@[simp] theorem writeCfg_ign (w : Word) (s : State) : (writeCfg w s).ign = s.ign := rfl
@[simp] theorem writeCfg_ecode (w : Word) (s : State) : (writeCfg w s).ecode = s.ecode := rfl
@[simp] theorem writeCfg_ie (w : Word) (s : State) : (writeCfg w s).ie = w.getLsbD 0 := rfl
@[simp] theorem writeCfg_src (w : Word) (s : State) : (writeCfg w s).src = s.src := rfl
@[simp] theorem writeCfg_dst (w : Word) (s : State) : (writeCfg w s).dst = s.dst := rfl
@[simp] theorem writeCfg_len (w : Word) (s : State) : (writeCfg w s).len = s.len := rfl
@[simp] theorem writeCfg_bytes (w : Word) (s : State) : (writeCfg w s).bytes = s.bytes := rfl
@[simp] theorem writeCfg_phase (w : Word) (s : State) : (writeCfg w s).phase = s.phase := rfl
@[simp] theorem writeCfg_op (w : Word) (s : State) : (writeCfg w s).op = s.op := rfl
@[simp] theorem writeCfg_rnd (w : Word) (s : State) : (writeCfg w s).rnd = s.rnd := rfl
@[simp] theorem writeCfg_off (w : Word) (s : State) : (writeCfg w s).off = s.off := rfl
@[simp] theorem writeCfg_j (w : Word) (s : State) : (writeCfg w s).j = s.j := rfl
@[simp] theorem writeCfg_wlen (w : Word) (s : State) : (writeCfg w s).wlen = s.wlen := rfl
@[simp] theorem writeCfg_ec (w : Word) (s : State) : (writeCfg w s).ec = s.ec := rfl
@[simp] theorem writeCfg_mem (w : Word) (s : State) : (writeCfg w s).mem = s.mem := rfl
@[simp] theorem writeCfg_platform (w : Word) (s : State) : (writeCfg w s).platform = s.platform := rfl
@[simp] theorem writeCfg_schedule (w : Word) (s : State) : (writeCfg w s).schedule = s.schedule := rfl
@[simp] theorem writeCfg_trace (w : Word) (s : State) : (writeCfg w s).trace = s.trace := rfl

/-! ### `emitAdvance` -/

@[simp] theorem emitAdvance_key (last : Phase) (s : State) : (emitAdvance last s).key = s.key := rfl
@[simp] theorem emitAdvance_nc (last : Phase) (s : State) : (emitAdvance last s).nc = s.nc := rfl
@[simp] theorem emitAdvance_sfile (last : Phase) (s : State) : (emitAdvance last s).sfile = s.sfile := rfl
@[simp] theorem emitAdvance_xfile (last : Phase) (s : State) : (emitAdvance last s).xfile = s.xfile := rfl
@[simp] theorem emitAdvance_ks (last : Phase) (s : State) : (emitAdvance last s).ks = s.ks := rfl
@[simp] theorem emitAdvance_done (last : Phase) (s : State) : (emitAdvance last s).done = s.done := rfl
@[simp] theorem emitAdvance_err (last : Phase) (s : State) : (emitAdvance last s).err = s.err := rfl
@[simp] theorem emitAdvance_ovf (last : Phase) (s : State) : (emitAdvance last s).ovf = s.ovf := rfl
@[simp] theorem emitAdvance_ign (last : Phase) (s : State) : (emitAdvance last s).ign = s.ign := rfl
@[simp] theorem emitAdvance_ecode (last : Phase) (s : State) : (emitAdvance last s).ecode = s.ecode := rfl
@[simp] theorem emitAdvance_ie (last : Phase) (s : State) : (emitAdvance last s).ie = s.ie := rfl
@[simp] theorem emitAdvance_src (last : Phase) (s : State) : (emitAdvance last s).src = s.src := rfl
@[simp] theorem emitAdvance_dst (last : Phase) (s : State) : (emitAdvance last s).dst = s.dst := rfl
@[simp] theorem emitAdvance_len (last : Phase) (s : State) : (emitAdvance last s).len = s.len := rfl
@[simp] theorem emitAdvance_bytes (last : Phase) (s : State) : (emitAdvance last s).bytes = s.bytes + 1 := rfl
@[simp] theorem emitAdvance_phase (last : Phase) (s : State) : (emitAdvance last s).phase = (if s.j + 1 = s.wlen then last else .emit) := rfl
@[simp] theorem emitAdvance_op (last : Phase) (s : State) : (emitAdvance last s).op = s.op := rfl
@[simp] theorem emitAdvance_rnd (last : Phase) (s : State) : (emitAdvance last s).rnd = s.rnd := rfl
@[simp] theorem emitAdvance_off (last : Phase) (s : State) : (emitAdvance last s).off = s.off := rfl
@[simp] theorem emitAdvance_j (last : Phase) (s : State) : (emitAdvance last s).j = s.j + 1 := rfl
@[simp] theorem emitAdvance_wlen (last : Phase) (s : State) : (emitAdvance last s).wlen = s.wlen := rfl
@[simp] theorem emitAdvance_ec (last : Phase) (s : State) : (emitAdvance last s).ec = s.ec := rfl
@[simp] theorem emitAdvance_mem (last : Phase) (s : State) : (emitAdvance last s).mem = s.mem := rfl
@[simp] theorem emitAdvance_platform (last : Phase) (s : State) : (emitAdvance last s).platform = s.platform := rfl
@[simp] theorem emitAdvance_schedule (last : Phase) (s : State) : (emitAdvance last s).schedule = s.schedule := rfl
@[simp] theorem emitAdvance_trace (last : Phase) (s : State) : (emitAdvance last s).trace = s.trace := rfl

/-! ### `resetDevice` -/

@[simp] theorem resetDevice_key (s : State) : (resetDevice s).key = State.reset.key := rfl
@[simp] theorem resetDevice_nc (s : State) : (resetDevice s).nc = State.reset.nc := rfl
@[simp] theorem resetDevice_sfile (s : State) : (resetDevice s).sfile = State.reset.sfile := rfl
@[simp] theorem resetDevice_xfile (s : State) : (resetDevice s).xfile = State.reset.xfile := rfl
@[simp] theorem resetDevice_ks (s : State) : (resetDevice s).ks = State.reset.ks := rfl
@[simp] theorem resetDevice_done (s : State) : (resetDevice s).done = State.reset.done := rfl
@[simp] theorem resetDevice_err (s : State) : (resetDevice s).err = State.reset.err := rfl
@[simp] theorem resetDevice_ovf (s : State) : (resetDevice s).ovf = State.reset.ovf := rfl
@[simp] theorem resetDevice_ign (s : State) : (resetDevice s).ign = State.reset.ign := rfl
@[simp] theorem resetDevice_ecode (s : State) : (resetDevice s).ecode = State.reset.ecode := rfl
@[simp] theorem resetDevice_ie (s : State) : (resetDevice s).ie = State.reset.ie := rfl
@[simp] theorem resetDevice_src (s : State) : (resetDevice s).src = State.reset.src := rfl
@[simp] theorem resetDevice_dst (s : State) : (resetDevice s).dst = State.reset.dst := rfl
@[simp] theorem resetDevice_len (s : State) : (resetDevice s).len = State.reset.len := rfl
@[simp] theorem resetDevice_bytes (s : State) : (resetDevice s).bytes = State.reset.bytes := rfl
@[simp] theorem resetDevice_phase (s : State) : (resetDevice s).phase = State.reset.phase := rfl
@[simp] theorem resetDevice_op (s : State) : (resetDevice s).op = State.reset.op := rfl
@[simp] theorem resetDevice_rnd (s : State) : (resetDevice s).rnd = State.reset.rnd := rfl
@[simp] theorem resetDevice_off (s : State) : (resetDevice s).off = State.reset.off := rfl
@[simp] theorem resetDevice_j (s : State) : (resetDevice s).j = State.reset.j := rfl
@[simp] theorem resetDevice_wlen (s : State) : (resetDevice s).wlen = State.reset.wlen := rfl
@[simp] theorem resetDevice_ec (s : State) : (resetDevice s).ec = State.reset.ec := rfl
@[simp] theorem resetDevice_mem (s : State) : (resetDevice s).mem = s.mem := rfl
@[simp] theorem resetDevice_platform (s : State) : (resetDevice s).platform = s.platform := rfl
@[simp] theorem resetDevice_schedule (s : State) : (resetDevice s).schedule = s.schedule := rfl
@[simp] theorem resetDevice_trace (s : State) : (resetDevice s).trace = s.trace := rfl

/-! ### `State.withFetchWord` -/

@[simp] theorem withFetchWord_key (s : State) (nbits w : Nat) : (s.withFetchWord nbits w).key = s.key := rfl
@[simp] theorem withFetchWord_nc (s : State) (nbits w : Nat) : (s.withFetchWord nbits w).nc = s.nc := rfl
@[simp] theorem withFetchWord_sfile (s : State) (nbits w : Nat) : (s.withFetchWord nbits w).sfile = s.sfile := rfl
@[simp] theorem withFetchWord_xfile (s : State) (nbits w : Nat) : (s.withFetchWord nbits w).xfile = s.xfile := rfl
@[simp] theorem withFetchWord_ks (s : State) (nbits w : Nat) : (s.withFetchWord nbits w).ks = s.ks := rfl
@[simp] theorem withFetchWord_done (s : State) (nbits w : Nat) : (s.withFetchWord nbits w).done = s.done := rfl
@[simp] theorem withFetchWord_err (s : State) (nbits w : Nat) : (s.withFetchWord nbits w).err = s.err := rfl
@[simp] theorem withFetchWord_ovf (s : State) (nbits w : Nat) : (s.withFetchWord nbits w).ovf = s.ovf := rfl
@[simp] theorem withFetchWord_ign (s : State) (nbits w : Nat) : (s.withFetchWord nbits w).ign = s.ign := rfl
@[simp] theorem withFetchWord_ecode (s : State) (nbits w : Nat) : (s.withFetchWord nbits w).ecode = s.ecode := rfl
@[simp] theorem withFetchWord_ie (s : State) (nbits w : Nat) : (s.withFetchWord nbits w).ie = s.ie := rfl
@[simp] theorem withFetchWord_src (s : State) (nbits w : Nat) : (s.withFetchWord nbits w).src = s.src := rfl
@[simp] theorem withFetchWord_dst (s : State) (nbits w : Nat) : (s.withFetchWord nbits w).dst = s.dst := rfl
@[simp] theorem withFetchWord_len (s : State) (nbits w : Nat) : (s.withFetchWord nbits w).len = s.len := rfl
@[simp] theorem withFetchWord_bytes (s : State) (nbits w : Nat) : (s.withFetchWord nbits w).bytes = s.bytes := rfl
@[simp] theorem withFetchWord_phase (s : State) (nbits w : Nat) : (s.withFetchWord nbits w).phase = s.phase := rfl
@[simp] theorem withFetchWord_op (s : State) (nbits w : Nat) : (s.withFetchWord nbits w).op = s.op := rfl
@[simp] theorem withFetchWord_rnd (s : State) (nbits w : Nat) : (s.withFetchWord nbits w).rnd = s.rnd := rfl
@[simp] theorem withFetchWord_off (s : State) (nbits w : Nat) : (s.withFetchWord nbits w).off = s.off := rfl
@[simp] theorem withFetchWord_j (s : State) (nbits w : Nat) : (s.withFetchWord nbits w).j = s.j := rfl
@[simp] theorem withFetchWord_wlen (s : State) (nbits w : Nat) : (s.withFetchWord nbits w).wlen = s.wlen := rfl
@[simp] theorem withFetchWord_ec (s : State) (nbits w : Nat) : (s.withFetchWord nbits w).ec = s.ec := rfl
@[simp] theorem withFetchWord_mem (s : State) (nbits w : Nat) : (s.withFetchWord nbits w).mem = s.mem := rfl
@[simp] theorem withFetchWord_platform (s : State) (nbits w : Nat) : (s.withFetchWord nbits w).platform = s.platform := rfl
@[simp] theorem withFetchWord_schedule (s : State) (nbits w : Nat) : (s.withFetchWord nbits w).schedule = fetchTurn s.platform nbits w :: s.schedule := rfl
@[simp] theorem withFetchWord_trace (s : State) (nbits w : Nat) : (s.withFetchWord nbits w).trace = s.trace := rfl

end Sys2Proof.Machine
end

