-- ==== Sys2Proof/Laws/Ops.lean ====
section
/-! SUPPORT. What each shared operation can do, said once: sequencing, ENGINE's memory primitives, the
error path, the accept of a command. -/

namespace Sys2Proof.Machine

/-! ### Sequencing -/

@[simp] theorem andThen_next {α β : Type} (a : α) (f : α → Host.Outcome β Fault Refusal) :
    andThen (.next a) f = f a := rfl

@[simp] theorem andThen_fault {α β : Type} (e : Fault) (f : α → Host.Outcome β Fault Refusal) :
    andThen (.fault e) f = .fault e := rfl

@[simp] theorem andThen_refused {α β : Type} (e : Refusal) (f : α → Host.Outcome β Fault Refusal) :
    andThen (.refused e) f = .refused e := rfl

/-- What a sequence that goes on did. -/
theorem andThen_eq_next {α β : Type} {r : Host.Outcome α Fault Refusal}
    {f : α → Host.Outcome β Fault Refusal} {b : β} (h : andThen r f = .next b) :
    ∃ a, r = .next a ∧ f a = .next b := by
  cases r with
  | next a => exact ⟨a, rfl, h⟩
  | fault e => cases h
  | refused e => cases h

theorem andThen_assoc {α β γ : Type} (r : Host.Outcome α Fault Refusal)
    (f : α → Host.Outcome β Fault Refusal) (g : β → Host.Outcome γ Fault Refusal) :
    andThen (andThen r f) g = andThen r fun a => andThen (f a) g := by
  cases r <;> rfl

/-! ### ENGINE's memory primitives (spec 20_memory.md R62) -/

theorem hasByte_iff {s : State} {a : Nat} : hasByte s a = true ↔ a < 2 ^ s.platform.addrW := by
  simp [hasByte]

theorem engineRead_in {a : Nat} {s : State} (h : a < 2 ^ s.platform.addrW) :
    engineRead a s = .next (memRead s.mem a, { s with trace := .engineRead a :: s.trace }) := by
  simp [engineRead, hasByte, h]

theorem engineWrite_in {a : Nat} {v : Byte} {s : State} (h : a < 2 ^ s.platform.addrW) :
    engineWrite a v s = .next { s with mem := memWrite s.mem a v, trace := .engineWrite a v :: s.trace } := by
  simp [engineWrite, hasByte, h]

theorem engineRead_next {a : Nat} {s : State} {r : Byte × State} (h : engineRead a s = .next r) :
    a < 2 ^ s.platform.addrW ∧ r = (memRead s.mem a, { s with trace := .engineRead a :: s.trace }) := by
  unfold engineRead at h
  split at h
  · next hb => cases h; exact ⟨hasByte_iff.1 hb, rfl⟩
  · cases h

theorem engineWrite_next {a : Nat} {v : Byte} {s t : State} (h : engineWrite a v s = .next t) :
    a < 2 ^ s.platform.addrW ∧
      t = { s with mem := memWrite s.mem a v, trace := .engineWrite a v :: s.trace } := by
  unfold engineWrite at h
  split at h
  · next hb => cases h; exact ⟨hasByte_iff.1 hb, rfl⟩
  · cases h

/-! ### BUSY, errors and accept -/

theorem busy_eq_true {s : State} : s.busy = true ↔ s.phase ≠ .idle := by simp [State.busy]

theorem busy_eq_false {s : State} : s.busy = false ↔ s.phase = .idle := by simp [State.busy]

/-- An error raised while PHASE = IDLE is a rejection (spec 60_exceptions.md R201). -/
theorem raiseError_idle {c : ErrorCode} {s : State} (h : s.phase = .idle) :
    raiseError c s = { s with err := true, ecode := c } := by
  simp [raiseError, h]

/-- An error raised in a command goes through EC and WIPE (spec 60_exceptions.md R203). -/
theorem raiseError_busy {c : ErrorCode} {s : State} (h : s.phase ≠ .idle) :
    raiseError c s = { s with ec := c, phase := .wipe } := by
  unfold raiseError
  split
  · next h' => exact absurd h' h
  · rfl

theorem unlessBusy_busy {f : State → State} {s : State} (h : s.phase ≠ .idle) :
    unlessBusy f s = dropWrite s := by simp [unlessBusy, busy_eq_true.2 h]

theorem unlessBusy_idle {f : State → State} {s : State} (h : s.phase = .idle) :
    unlessBusy f s = f s := by simp [unlessBusy, busy_eq_false.2 h]

theorem startCommand_busy {i : Instr} {ok : State → Bool} {first : State → Phase} {s : State}
    (h : s.phase ≠ .idle) : startCommand i ok first s = dropWrite s := by
  simp [startCommand, busy_eq_true.2 h]

theorem startCommand_accepted {i : Instr} {ok : State → Bool} {first : State → Phase} {s : State}
    (h : s.phase = .idle) (hok : ok s = true) :
    startCommand i ok first s = { s with
      done := false, err := false, ovf := false, ign := false, ecode := .none, bytes := 0
      op := some i, rnd := 0, off := 0, j := 0, wlen := 0, ec := .none, phase := first s } := by
  simp [startCommand, busy_eq_false.2 h, hok, clearReport]

theorem startCommand_rejected {i : Instr} {ok : State → Bool} {first : State → Phase} {s : State}
    (h : s.phase = .idle) (hok : ok s = false) :
    startCommand i ok first s = { s with
      done := false, err := true, ovf := false, ign := false, ecode := .range, bytes := 0 } := by
  have hc : (clearReport s).phase = .idle := h
  simp only [startCommand, busy_eq_false.2 h, hok, Bool.false_eq_true, if_false, raiseError_idle hc]
  simp [clearReport, h]

theorem rejectIllegal_busy {s : State} (h : s.phase ≠ .idle) : rejectIllegal s = dropWrite s := by
  simp [rejectIllegal, busy_eq_true.2 h]

theorem rejectIllegal_idle {s : State} (h : s.phase = .idle) :
    rejectIllegal s = { s with
      done := false, err := true, ovf := false, ign := false, ecode := .illegalCmd, bytes := 0 } := by
  have hc : (clearReport s).phase = .idle := h
  simp only [rejectIllegal, busy_eq_false.2 h, Bool.false_eq_true, if_false, raiseError_idle hc]
  simp [clearReport, h]

/-- The range check reads SRC, DST, LEN and P_ADDR_W alone (spec 60_exceptions.md R200). -/
theorem rangeOk_congr {s t : State} (i : Instr) (hs : t.src = s.src) (hd : t.dst = s.dst) (hl : t.len = s.len)
    (hp : t.platform = s.platform) : rangeOk i t = rangeOk i s := by
  cases i <;> simp only [rangeOk, rangeOkBlock, rangeOkXor, rangeOkKstream, rangeOkCtrinc, rangeFits, hs, hd, hl, hp]

/-- The first phase of each command (spec 30_encoding.md R84). -/
def firstPhase : Instr → State → Phase
  | .block, _ => .init
  | .xor, s => streamFirst s
  | .kstream, s => streamFirst s
  | .ctrinc, _ => .inc

/-- `exec` of every command is the one accept operation. -/
theorem exec_eq (i : Instr) (s : State) : exec i s = .next (startCommand i (rangeOk i) (firstPhase i) s) := by
  cases i <;> rfl

end Sys2Proof.Machine
end

