-- ==== Sys2Proof/Laws/Micro.lean ====
section
/-! SUPPORT. ENGINE's micro-steps: one equation for each phase, and once, everything a micro-step can
do. -/

namespace Sys2Proof.Machine

theorem engineStep_idle {s : State} (h : s.phase = .idle) : engineStep s = .next s := by
  simp [engineStep, h]

theorem engineStep_init {s : State} (h : s.phase = .init) :
    engineStep s = .next { s with
      sfile := initState s.key s.nc, xfile := initState s.key s.nc, rnd := 0, phase := .round } := by
  simp [engineStep, h, microInit]

theorem engineStep_round {s : State} (h : s.phase = .round) (hr : s.rnd < 20) :
    engineStep s = .next { s with
      xfile := roundFn s.xfile s.rnd, rnd := s.rnd + 1
      phase := if s.rnd + 1 = 20 then .feed else .round } := by
  simp [engineStep, h, microRound, hr, Config.rounds]

/-- The window length that FEED sets (spec 41_block_function.md R124). -/
def feedLength (s : State) : Nat := if s.op = some .block then 64 else windowLength s

theorem engineStep_feed {s : State} (h : s.phase = .feed) (hop : s.op = some .block ∨ isStream s.op = true) :
    engineStep s = .next { s with
      ks := feedForward s.xfile s.sfile, wlen := feedLength s, j := 0, phase := .emit } := by
  rcases hc : s.op with _ | i
  · simp [hc, isStream] at hop
  · cases i <;> simp_all [engineStep, microFeed, feedLength, feedBlock, feedXor, feedKstream, feedWindow, isStream]

theorem engineStep_emit {s : State} (h : s.phase = .emit) (hj : s.j < s.wlen) (hw : s.wlen ≤ 64) :
    engineStep s = match s.op with
      | some .block => emitBlock s
      | some .xor => emitXor s
      | some .kstream => emitKstream s
      | some .ctrinc => .fault (.sequencer .emit)
      | none => .fault (.sequencer .emit) := by
  rcases hc : s.op with _ | i
  · simp [engineStep, h, microEmit, hj, hw, hc]
  · cases i <;> simp [engineStep, h, microEmit, hj, hw, hc]

theorem emitBlock_in {s : State} (h : blockAddr s < 2 ^ s.platform.addrW) :
    emitBlock s = .next { s with
      mem := memWrite s.mem (blockAddr s) (ser s.ks s.j)
      trace := .engineWrite (blockAddr s) (ser s.ks s.j) :: s.trace
      bytes := s.bytes + 1, j := s.j + 1, phase := if s.j + 1 = s.wlen then .wipe else .emit } := by
  simp [emitBlock, engineWrite_in h, emitAdvance]

theorem emitKstream_in {s : State} (h : outputAddr s < 2 ^ s.platform.addrW) :
    emitKstream s = .next { s with
      mem := memWrite s.mem (outputAddr s) (ser s.ks s.j)
      trace := .engineWrite (outputAddr s) (ser s.ks s.j) :: s.trace
      bytes := s.bytes + 1, j := s.j + 1, phase := if s.j + 1 = s.wlen then .inc else .emit } := by
  simp [emitKstream, engineWrite_in h, emitAdvance]

theorem emitXor_in {s : State} (hi : inputAddr s < 2 ^ s.platform.addrW)
    (ho : outputAddr s < 2 ^ s.platform.addrW) :
    emitXor s = .next { s with
      mem := memWrite s.mem (outputAddr s) (memRead s.mem (inputAddr s) ^^^ ser s.ks s.j)
      trace := .engineWrite (outputAddr s) (memRead s.mem (inputAddr s) ^^^ ser s.ks s.j) ::
        .engineRead (inputAddr s) :: s.trace
      bytes := s.bytes + 1, j := s.j + 1, phase := if s.j + 1 = s.wlen then .inc else .emit } := by
  simp [emitXor, engineRead, engineWrite, hasByte, hi, ho, emitAdvance]

theorem engineStep_wipe {s : State} (h : s.phase = .wipe) : engineStep s = microWipe s := by
  simp [engineStep, h]

theorem incWindow_eq (after : State → Phase) (s : State) (hp : s.phase ≠ .idle) :
    incWindow after s = .next (if (incNc s.nc).2 then
      { s with
        nc := (incNc s.nc).1, off := s.off + BitVec.ofNat 32 s.wlen, ec := .ctrOverflow, phase := .wipe }
      else { s with
        nc := (incNc s.nc).1, off := s.off + BitVec.ofNat 32 s.wlen
        phase := after { s with nc := (incNc s.nc).1, off := s.off + BitVec.ofNat 32 s.wlen } }) := by
  simp only [incWindow]
  split
  · rw [raiseError_busy (by exact hp)]
  · rfl

/-- The phase after INC when the counter did not overflow (spec 42_counter.md R143). -/
def incAfter (s : State) : Phase :=
  if isStream s.op = true ∧ (s.off + BitVec.ofNat 32 s.wlen).toNat < s.len.toNat then .init else .wipe

theorem engineStep_inc {s : State} (h : s.phase = .inc)
    (hop : s.op = some .ctrinc ∨ isStream s.op = true) :
    engineStep s = .next (if (incNc s.nc).2 then
      { s with
        nc := (incNc s.nc).1, off := s.off + BitVec.ofNat 32 s.wlen, ec := .ctrOverflow, phase := .wipe }
      else { s with
        nc := (incNc s.nc).1, off := s.off + BitVec.ofNat 32 s.wlen, phase := incAfter s }) := by
  have hp : s.phase ≠ .idle := by simp [h]
  rcases hc : s.op with _ | i
  · simp [hc, isStream] at hop
  · cases i <;>
      simp_all [engineStep, microInc, incXor, incKstream, incCtrinc, incWindow_eq, incAfter, afterWindow, isStream]

/-- Everything a micro-step that goes on can be. -/
inductive MicroStep (s : State) : State → Prop where
  | idle (h : s.phase = .idle) : MicroStep s s
  | init (h : s.phase = .init) : MicroStep s { s with
      sfile := initState s.key s.nc, xfile := initState s.key s.nc, rnd := 0, phase := .round }
  | round (h : s.phase = .round) (hr : s.rnd < 20) : MicroStep s { s with
      xfile := roundFn s.xfile s.rnd, rnd := s.rnd + 1
      phase := if s.rnd + 1 = 20 then .feed else .round }
  | feed (h : s.phase = .feed) (hop : s.op = some .block ∨ isStream s.op = true) : MicroStep s { s with
      ks := feedForward s.xfile s.sfile, wlen := feedLength s, j := 0, phase := .emit }
  | emitBlock (h : s.phase = .emit) (hj : s.j < s.wlen) (hw : s.wlen ≤ 64) (hop : s.op = some .block)
      (ho : blockAddr s < 2 ^ s.platform.addrW) : MicroStep s { s with
      mem := memWrite s.mem (blockAddr s) (ser s.ks s.j)
      trace := .engineWrite (blockAddr s) (ser s.ks s.j) :: s.trace
      bytes := s.bytes + 1, j := s.j + 1, phase := if s.j + 1 = s.wlen then .wipe else .emit }
  | emitXor (h : s.phase = .emit) (hj : s.j < s.wlen) (hw : s.wlen ≤ 64) (hop : s.op = some .xor)
      (hi : inputAddr s < 2 ^ s.platform.addrW) (ho : outputAddr s < 2 ^ s.platform.addrW) :
      MicroStep s { s with
      mem := memWrite s.mem (outputAddr s) (memRead s.mem (inputAddr s) ^^^ ser s.ks s.j)
      trace := .engineWrite (outputAddr s) (memRead s.mem (inputAddr s) ^^^ ser s.ks s.j) ::
        .engineRead (inputAddr s) :: s.trace
      bytes := s.bytes + 1, j := s.j + 1, phase := if s.j + 1 = s.wlen then .inc else .emit }
  | emitKstream (h : s.phase = .emit) (hj : s.j < s.wlen) (hw : s.wlen ≤ 64) (hop : s.op = some .kstream)
      (ho : outputAddr s < 2 ^ s.platform.addrW) : MicroStep s { s with
      mem := memWrite s.mem (outputAddr s) (ser s.ks s.j)
      trace := .engineWrite (outputAddr s) (ser s.ks s.j) :: s.trace
      bytes := s.bytes + 1, j := s.j + 1, phase := if s.j + 1 = s.wlen then .inc else .emit }
  | incOverflow (h : s.phase = .inc) (hop : s.op = some .ctrinc ∨ isStream s.op = true)
      (hc : (incNc s.nc).2 = true) : MicroStep s { s with
        nc := (incNc s.nc).1, off := s.off + BitVec.ofNat 32 s.wlen, ec := .ctrOverflow, phase := .wipe }
  | inc (h : s.phase = .inc) (hop : s.op = some .ctrinc ∨ isStream s.op = true)
      (hc : (incNc s.nc).2 = false) : MicroStep s { s with
        nc := (incNc s.nc).1, off := s.off + BitVec.ofNat 32 s.wlen, phase := incAfter s }
  | wipe (h : s.phase = .wipe) : MicroStep s { s with
      ks := Vector.replicate 16 0, sfile := Vector.replicate 16 0, xfile := Vector.replicate 16 0
      done := if s.ec = .none then true else s.done
      err := if s.ec = .none then s.err else true
      ecode := if s.ec = .none then s.ecode else s.ec
      ovf := if s.ec = .ctrOverflow then true else s.ovf
      op := none, rnd := 0, off := 0, j := 0, wlen := 0, ec := .none, phase := .idle }

theorem emitBlock_next {s t : State} (h : emitBlock s = .next t) : blockAddr s < 2 ^ s.platform.addrW := by
  obtain ⟨u, hu, -⟩ := andThen_eq_next h
  exact (engineWrite_next hu).1

theorem emitKstream_next {s t : State} (h : emitKstream s = .next t) :
    outputAddr s < 2 ^ s.platform.addrW := by
  obtain ⟨u, hu, -⟩ := andThen_eq_next h
  exact (engineWrite_next hu).1

theorem emitXor_next {s t : State} (h : emitXor s = .next t) :
    inputAddr s < 2 ^ s.platform.addrW ∧ outputAddr s < 2 ^ s.platform.addrW := by
  obtain ⟨⟨v, u⟩, hu, hw⟩ := andThen_eq_next h
  obtain ⟨hi, he⟩ := engineRead_next hu
  cases he
  obtain ⟨w, hw, -⟩ := andThen_eq_next hw
  exact ⟨hi, (engineWrite_next hw).1⟩

/-- The inversion lemma of `engineStep`. -/
theorem engineStep_cases {s t : State} (h : engineStep s = .next t) : MicroStep s t := by
  rcases hp : s.phase
  case idle => rw [engineStep_idle hp] at h; cases h; exact .idle hp
  case init => rw [engineStep_init hp] at h; cases h; exact .init hp
  case round =>
    by_cases hr : s.rnd < 20
    · rw [engineStep_round hp hr] at h; cases h; exact .round hp hr
    · simp [engineStep, hp, microRound, hr] at h
  case feed =>
    by_cases hop : s.op = some .block ∨ isStream s.op = true
    · rw [engineStep_feed hp hop] at h; cases h; exact .feed hp hop
    · rcases hc : s.op with _ | i
      · simp [engineStep, hp, microFeed, hc] at h
      · cases i <;> simp_all [engineStep, microFeed, isStream]
  case emit =>
    by_cases hj : s.j < s.wlen ∧ s.wlen ≤ 64
    · rw [engineStep_emit hp hj.1 hj.2] at h
      rcases hc : s.op with _ | i
      · simp [hc] at h
      · cases i <;> simp only [hc] at h
        · have ha := emitBlock_next h
          rw [emitBlock_in ha] at h; cases h; exact .emitBlock hp hj.1 hj.2 hc ha
        · have ha := emitXor_next h
          rw [emitXor_in ha.1 ha.2] at h; cases h; exact .emitXor hp hj.1 hj.2 hc ha.1 ha.2
        · have ha := emitKstream_next h
          rw [emitKstream_in ha] at h; cases h; exact .emitKstream hp hj.1 hj.2 hc ha
        · cases h
    · simp [engineStep, hp, microEmit, hj] at h
  case inc =>
    by_cases hop : s.op = some .ctrinc ∨ isStream s.op = true
    · rw [engineStep_inc hp hop] at h
      cases hc : (incNc s.nc).2 <;> simp only [hc] at h <;> cases h
      · exact .inc hp hop hc
      · exact .incOverflow hp hop hc
    · rcases hc : s.op with _ | i
      · simp [engineStep, hp, microInc, hc] at h
      · cases i <;> simp_all [engineStep, microInc, isStream]
  case wipe => rw [engineStep_wipe hp] at h; cases h; exact .wipe hp

end Sys2Proof.Machine
end

