-- ==== Sys2Proof/Laws/Words.lean ====
section
/-! SUPPORT. The word helpers as arithmetic, the word files word by word, and the counter increment. -/

namespace Sys2Proof.Machine

/-! ### Bytes and words -/

theorem le32_eq_append (b0 b1 b2 b3 : Byte) : le32 b0 b1 b2 b3 = b3 ++ b2 ++ b1 ++ b0 := by
  apply BitVec.eq_of_getLsbD_eq
  intro i hi
  simp only [le32, BitVec.getLsbD_or, BitVec.getLsbD_shiftLeft, BitVec.getLsbD_setWidth, BitVec.getLsbD_append]
  interval_cases i <;> simp

/-- `le32` as a number (spec 00_scope.md R13). -/
theorem le32_toNat (b0 b1 b2 b3 : Byte) :
    (le32 b0 b1 b2 b3).toNat = b0.toNat + 2 ^ 8 * b1.toNat + 2 ^ 16 * b2.toNat + 2 ^ 24 * b3.toNat := by
  have h0 := b0.isLt
  have h1 := b1.isLt
  have h2 := b2.isLt
  rw [le32_eq_append]
  simp only [BitVec.toNat_append]
  rw [← Nat.shiftLeft_add_eq_or_of_lt h0, ← Nat.shiftLeft_add_eq_or_of_lt h1, ← Nat.shiftLeft_add_eq_or_of_lt h2]
  simp only [Nat.shiftLeft_eq]
  omega

/-- `byte` as a number (spec 00_scope.md R13). -/
theorem byteOf_toNat (v : Word) (k : Nat) : (byteOf v k).toNat = v.toNat / 2 ^ (8 * k) % 2 ^ 8 := by
  simp [byteOf, BitVec.extractLsb'_toNat, Nat.shiftRight_eq_div_pow]

theorem byteOf_le32 (b0 b1 b2 b3 : Byte) (k : Nat) (hk : k < 4) :
    byteOf (le32 b0 b1 b2 b3) k = #v[b0, b1, b2, b3][k] := by
  apply BitVec.eq_of_toNat_eq
  rw [byteOf_toNat, le32_toNat]
  have h0 := b0.isLt
  have h1 := b1.isLt
  have h2 := b2.isLt
  have h3 := b3.isLt
  interval_cases k <;> simp <;> omega

theorem le32_byteOf (v : Word) : le32 (byteOf v 0) (byteOf v 1) (byteOf v 2) (byteOf v 3) = v := by
  apply BitVec.eq_of_toNat_eq
  rw [le32_toNat]
  simp only [byteOf_toNat]
  have := v.isLt
  omega

/-- `rotl32` is the circular left rotation (spec 00_scope.md R12). -/
theorem rotl32_eq_rotateLeft (v : Word) (n : Nat) (hn : n < 32) : rotl32 v n = v.rotateLeft n := by
  simp [rotl32, BitVec.rotateLeft, BitVec.rotateLeftAux, Nat.mod_eq_of_lt hn]

/-! ### Word files -/

@[simp] theorem feedForward_get (x s : Vector Word 16) (i : Nat) (hi : i < 16) :
    (feedForward x s)[i] = x[i] + s[i] := by
  simp [feedForward]

theorem initState_sigma (key : Vector Word 8) (nc : Vector Word 4) (i : Nat) (hi : i < 4) :
    (initState key nc)[i] = sigma[i] := by
  have h := Vector.getElem_append_left (xs := sigma ++ key) (ys := nc) (i := i) (by omega)
  exact h.trans (Vector.getElem_append_left hi)

theorem initState_key (key : Vector Word 8) (nc : Vector Word 4) (i : Nat) (hi : i < 8) :
    (initState key nc)[4 + i] = key[i] := by
  have h := Vector.getElem_append_left (xs := sigma ++ key) (ys := nc) (i := 4 + i) (by omega)
  refine h.trans ((Vector.getElem_append_right (by omega) (by omega)).trans ?_)
  simp

theorem initState_nc (key : Vector Word 8) (nc : Vector Word 4) (i : Nat) (hi : i < 4) :
    (initState key nc)[12 + i] = nc[i] := by
  have h := Vector.getElem_append_right (xs := sigma ++ key) (ys := nc) (i := 12 + i) (by omega) (by omega)
  exact h.trans (by simp)

theorem four_bytes_get {n : Nat} (b : Vector Byte n) (q r : Nat) (hr : r < 4) (h : 4 * q + 4 ≤ n) :
    (#v[b[4 * q], b[4 * q + 1], b[4 * q + 2], b[4 * q + 3]])[r] = b[4 * q + r] := by
  interval_cases r <;> rfl

theorem keyByte_keyOfBytes (kb : Vector Byte 32) (k : Fin 32) : keyByte (keyOfBytes kb) k = kb[k] := by
  obtain ⟨k, hk⟩ := k
  simp only [keyByte, keyOfBytes, Vector.getElem_ofFn]
  rw [byteOf_le32 _ _ _ _ _ (Nat.mod_lt _ (by decide)), four_bytes_get kb _ _ (Nat.mod_lt _ (by decide)) (by omega)]
  simp only [Nat.div_add_mod, Fin.getElem_fin]

theorem ncBytes_ncOfBytes (nb : Vector Byte 16) : ncBytes (ncOfBytes nb) = nb := by
  ext k hk : 1
  simp only [ncBytes, ncOfBytes, Vector.getElem_ofFn]
  rw [byteOf_le32 _ _ _ _ _ (Nat.mod_lt _ (by decide)), four_bytes_get nb _ _ (Nat.mod_lt _ (by decide)) (by omega)]
  simp only [Nat.div_add_mod]

/-! ### The counter -/

theorem ncBytes_get (nc : Vector Word 4) (k : Nat) (hk : k < 16) :
    (ncBytes nc)[k] = byteOf (nc[k / 4]'(by omega)) (k % 4) := by
  simp [ncBytes]

theorem ncOfBytes_get (nb : Vector Byte 16) (i : Nat) (hi : i < 4) :
    (ncOfBytes nb)[i] = le32 nb[4 * i] nb[4 * i + 1] nb[4 * i + 2] nb[4 * i + 3] := by
  simp [ncOfBytes]

/-- The increment of NC's counter bytes is the increment of NC[0], and the carry out is NC[0] =
0xFFFFFFFF (spec 42_counter.md R141). -/
theorem incNc_eq (nc : Vector Word 4) :
    incNc nc = (nc.set 0 (nc[0] + 1), decide (nc[0] = 0xFFFFFFFF)) := by
  have hv := nc[0].isLt
  have e : ∀ b : Bool, b.toNat = if b then 1 else 0 := by decide
  have n : ∀ y, ¬256 ≤ y % 256 := by omega
  simp only [incNc, ctrInc, ctrIncLoop]
  refine Prod.ext ?_ ?_
  · ext i hi : 1
    rw [ncOfBytes_get _ i hi]
    interval_cases i
    · apply BitVec.eq_of_toNat_eq
      rw [le32_toNat]
      simp [ncBytes_get, byteOf_toNat, e, BitVec.toNat_add]
      by_cases h1 : 255 ≤ nc[0].toNat % 256 <;> by_cases h2 : 255 ≤ nc[0].toNat / 256 % 256 <;>
        by_cases h3 : 255 ≤ nc[0].toNat / 65536 % 256 <;> simp [h1, h2, h3, n] <;> omega
    all_goals simp [ncBytes_get, le32_byteOf]
  · simp only [BitVec.toNat_eq]
    simp [ncBytes_get, byteOf_toNat, e]
    by_cases h1 : 255 ≤ nc[0].toNat % 256 <;> by_cases h2 : 255 ≤ nc[0].toNat / 256 % 256 <;>
      by_cases h3 : 255 ≤ nc[0].toNat / 65536 % 256 <;> simp [h1, h2, h3, n] <;> omega

theorem incNc_fst (nc : Vector Word 4) : (incNc nc).1 = nc.set 0 (nc[0] + 1) := by rw [incNc_eq]

theorem incNc_snd (nc : Vector Word 4) : (incNc nc).2 = decide (nc[0] = 0xFFFFFFFF) := by rw [incNc_eq]

end Sys2Proof.Machine
end

