-- ==== Sys2Proof/Laws/Run.lean ====
section
/-! SUPPORT. Runs of ENGINE micro-steps: how they compose, the 22 micro-steps that compute a block, the
EMIT micro-steps of a window, and the loop over the windows of a stream. -/

namespace Sys2Proof.Machine

/-! ### Composition -/

theorem engineRun_succ {s t : State} (h : engineStep s = .next t) (n : Nat) :
    engineRun (n + 1) s = engineRun n t := by
  simp [engineRun, h]

theorem engineRun_add (m n : Nat) (s : State) :
    engineRun (m + n) s = andThen (engineRun m s) (engineRun n) := by
  induction m generalizing s with
  | zero => simp [engineRun]
  | succ m ih =>
    rw [Nat.succ_add]
    simp only [engineRun, andThen_assoc]
    congr 1
    funext t
    exact ih t

theorem engineRun_trans {m n : Nat} {s t : State} {r : Result} (h : engineRun m s = .next t)
    (h' : engineRun n t = r) : engineRun (m + n) s = r := by
  rw [engineRun_add, h, andThen_next, h']

theorem engineRun_snoc {n : Nat} {s t : State} (h : engineRun n s = .next t) :
    engineRun (n + 1) s = engineStep t := by
  refine engineRun_trans h ?_
  cases ht : engineStep t <;> simp [engineRun, ht]

/-- BUSY = 0 is absorbing for ENGINE. -/
theorem engineRun_idle {s : State} (h : s.phase = .idle) (n : Nat) : engineRun n s = .next s := by
  induction n with
  | zero => rfl
  | succ n ih => rw [engineRun_succ (engineStep_idle h), ih]

/-- The state that WIPE leaves (spec 43_stream_xor.md R170). -/
def wiped (s : State) : State :=
  { s with
    ks := Vector.replicate 16 0, sfile := Vector.replicate 16 0, xfile := Vector.replicate 16 0
    done := if s.ec = .none then true else s.done
    err := if s.ec = .none then s.err else true
    ecode := if s.ec = .none then s.ecode else s.ec
    ovf := if s.ec = .ctrOverflow then true else s.ovf
    op := none, rnd := 0, off := 0, j := 0, wlen := 0, ec := .none, phase := .idle }

theorem engineStep_wipe_eq {s : State} (h : s.phase = .wipe) : engineStep s = .next (wiped s) := by
  rw [engineStep_wipe h]; rfl

/-- A run that reaches WIPE ends the command with one more micro-step, and not before. -/
theorem endsAfter_of_wipe {n : Nat} {t w : State} (h : engineRun n t = .next w) (hw : w.phase = .wipe) :
    EndsAfter (n + 1) t (wiped w) := by
  refine ⟨by rw [engineRun_snoc h, engineStep_wipe_eq hw], rfl, fun m hm v hv hi => ?_⟩
  have : engineRun n t = .next v := by
    have := engineRun_trans hv (engineRun_idle hi (n - m))
    rwa [Nat.add_sub_cancel' (by omega)] at this
  rw [h] at this
  cases this
  simp [hw] at hi

/-- The end of a command is unique. -/
theorem endsAfter_unique {m n : Nat} {t u v : State} (hu : EndsAfter m t u) (hv : EndsAfter n t v) : u = v := by
  have hmn : m = n := by
    rcases Nat.lt_trichotomy m n with h | h | h
    · exact absurd hu.2.1 (hv.2.2 m h u hu.1)
    · exact h
    · exact absurd hv.2.1 (hu.2.2 n h v hv.1)
  subst hmn
  have := hu.1.symm.trans hv.1
  cases this
  rfl

theorem completes_unique {i : Instr} {s u v : State} (hu : Completes i s u) (hv : Completes i s v) : u = v := by
  obtain ⟨t, m, ht, hm⟩ := hu
  obtain ⟨t', n, ht', hn⟩ := hv
  rw [ht] at ht'
  cases ht'
  exact endsAfter_unique hm hn

/-! ### One block -/

/-- ROUND micro-steps apply the rounds in order (spec 40_quarter_round.md R109). -/
theorem run_rounds (x : Vector Word 16) (k : Nat) (s : State) (hp : s.phase = .round) (hr : s.rnd < 20)
    (hx : s.xfile = roundsTo x s.rnd) (hk : s.rnd + k ≤ 20) :
    engineRun k s = .next { s with
      xfile := roundsTo x (s.rnd + k), rnd := s.rnd + k
      phase := if s.rnd + k = 20 then .feed else .round } := by
  induction k generalizing s with
  | zero => cases s; simp_all [engineRun]; omega
  | succ k ih =>
    rw [engineRun_succ (engineStep_round hp hr)]
    have hx' : roundFn s.xfile s.rnd = roundsTo x (s.rnd + 1) := by rw [hx]; rfl
    by_cases hl : s.rnd + 1 = 20
    · obtain rfl : k = 0 := by omega
      simp [engineRun, hx']
    · rw [ih _ (by simp [hl]) (by simp; omega) hx' (by simp; omega)]
      simp only [Nat.add_assoc, Nat.add_comm 1 k]

/-- INIT, 20 ROUND and FEED (spec 41_block_function.md R126): the keystream words of the block. -/
theorem run_block {s : State} (hp : s.phase = .init) (hop : s.op = some .block ∨ isStream s.op = true) :
    engineRun 22 s = .next { s with
      sfile := initState s.key s.nc, xfile := permute (initState s.key s.nc)
      ks := blockWords s.key s.nc, rnd := 20, wlen := feedLength s, j := 0, phase := .emit } := by
  rw [engineRun_succ (engineStep_init hp)]
  have hr := run_rounds (initState s.key s.nc) 20
    { s with sfile := initState s.key s.nc, xfile := initState s.key s.nc, rnd := 0, phase := .round }
    rfl (by simp) rfl (by simp)
  simp only [Nat.zero_add, if_true] at hr
  rw [engineRun_snoc hr, engineStep_feed (by rfl) (by exact hop)]
  rfl

/-! ### One window -/

/-- The EMIT micro-steps of a window, for any command: `M n` and `T n` are memory and trace after `n`
bytes. -/
theorem run_emit (M : Nat → Memory) (T : Nat → List Event) (last : Phase) (e : State) (hp : e.phase = .emit)
    (hstep : ∀ j < e.wlen,
      engineStep { e with mem := M j, trace := T j, bytes := e.bytes + BitVec.ofNat 32 j, j := j } =
        .next { e with
          mem := M (j + 1), trace := T (j + 1), bytes := e.bytes + BitVec.ofNat 32 (j + 1), j := j + 1
          phase := if j + 1 = e.wlen then last else .emit })
    (n : Nat) (h0 : 0 < n) (hn : n ≤ e.wlen) :
    engineRun n { e with mem := M 0, trace := T 0, j := 0 } = .next { e with
      mem := M n, trace := T n, bytes := e.bytes + BitVec.ofNat 32 n, j := n
      phase := if n = e.wlen then last else .emit } := by
  induction n with
  | zero => omega
  | succ n ih =>
    rcases Nat.eq_zero_or_pos n with rfl | hpos
    · have := hstep 0 (by omega)
      simp only [BitVec.add_zero] at this
      rw [engineRun_succ this]
      rfl
    · rw [engineRun_snoc (ih hpos (by omega))]
      have hne : ¬n = e.wlen := by omega
      have := hstep n (by omega)
      simp only [hne, if_false]
      rw [hp] at this
      exact this

/-! ### The loop over windows -/

theorem ncAt_zero (nc : Vector Word 4) : ncAt nc 0 = nc := by
  ext i hi : 1
  by_cases h : i = 0
  · subst h; simp [ncAt]
  · exact Vector.getElem_set_ne _ _ (Ne.symm h)

@[simp] theorem ncAt_get_zero (nc : Vector Word 4) (m : Nat) : (ncAt nc m)[0] = nc[0] + BitVec.ofNat 32 m := by
  simp [ncAt]

theorem ncAt_get (nc : Vector Word 4) (m i : Nat) (hi : i < 4) (h : i ≠ 0) : (ncAt nc m)[i] = nc[i] := by
  exact Vector.getElem_set_ne _ _ (Ne.symm h)

theorem ncAt_succ (nc : Vector Word 4) (m : Nat) : (ncAt nc m).set 0 ((ncAt nc m)[0] + 1) = ncAt nc (m + 1) := by
  have h : (BitVec.ofNat 32 m) + 1 = BitVec.ofNat 32 (m + 1) := by
    apply BitVec.eq_of_toNat_eq; simp [BitVec.toNat_add]
  rw [ncAt_get_zero, BitVec.add_assoc, h, ncAt, Vector.set_set]
  rfl

theorem ncAt_toNat {nc : Vector Word 4} {m : Nat} (h : nc[0].toNat + m < 2 ^ 32) :
    (ncAt nc m)[0].toNat = nc[0].toNat + m := by
  rw [ncAt_get_zero, BitVec.toNat_add, BitVec.toNat_ofNat]
  omega

/-- What stays fixed from the accept of a stream `i` in `s` to its WIPE. -/
structure InStream (s : State) (i : Instr) (t : State) : Prop where
  key : t.key = s.key
  ie : t.ie = s.ie
  src : t.src = s.src
  dst : t.dst = s.dst
  len : t.len = s.len
  platform : t.platform = s.platform
  schedule : t.schedule = s.schedule
  op : t.op = some i
  report : t.done = false ∧ t.err = false ∧ t.ovf = false ∧ t.ign = false ∧ t.ecode = .none

/-- A stream at byte position `n` in window `m`, with `M` and `T` its memory and trace by position. -/
structure AtByte (s : State) (i : Instr) (M : Nat → Memory) (T : Nat → List Event) (m n : Nat) (t : State) :
    Prop where
  stream : InStream s i t
  nc : t.nc = ncAt s.nc m
  bytes : t.bytes = BitVec.ofNat 32 n
  mem : t.mem = M n
  trace : t.trace = T n

/-- `M` and `T` are what the EMIT micro-steps of a stream `i` accepted in `s` make, byte by byte. -/
def Emits (s : State) (i : Instr) (M : Nat → Memory) (T : Nat → List Event) : Prop :=
  ∀ (m j : Nat) (u : State), 64 * m + j < s.len.toNat → InStream s i u → u.phase = .emit →
    u.ks = blockWords s.key (ncAt s.nc m) → u.off = BitVec.ofNat 32 (64 * m) → u.j = j → j < u.wlen →
    u.wlen ≤ 64 → u.mem = M (64 * m + j) → u.trace = T (64 * m + j) →
    engineStep u = .next { u with
      mem := M (64 * m + j + 1), trace := T (64 * m + j + 1), bytes := u.bytes + 1, j := j + 1
      phase := if j + 1 = u.wlen then .inc else .emit }

/-- One window, up to its INC. -/
theorem run_window {s : State} {i : Instr} {M : Nat → Memory} {T : Nat → List Event} (hi : isStream (some i) = true)
    (hE : Emits s i M T) {m : Nat} {t : State} (ht : AtByte s i M T m (64 * m) t) (hp : t.phase = .init)
    (hoff : t.off = BitVec.ofNat 32 (64 * m)) (hec : t.ec = .none) (hm : 64 * m < s.len.toNat) :
    ∃ u, engineRun (22 + min 64 (s.len.toNat - 64 * m)) t = .next u ∧
      AtByte s i M T m (64 * m + min 64 (s.len.toNat - 64 * m)) u ∧ u.phase = .inc ∧
      u.off = BitVec.ofNat 32 (64 * m) ∧ u.ec = .none ∧ u.wlen = min 64 (s.len.toNat - 64 * m) := by
  have hlen := s.len.isLt
  obtain ⟨hs, hnc, hb, hmem, htr⟩ := ht
  have hoffN : t.off.toNat = 64 * m := by rw [hoff, BitVec.toNat_ofNat]; omega
  have hfl : feedLength t = min 64 (s.len.toNat - 64 * m) := by
    have hne : t.op ≠ some .block := by
      intro h; rw [hs.op] at h; cases h; simp [isStream] at hi
    simp [feedLength, hne, windowLength, hs.len, hoffN, Config.blockBytes]
  have hblock := run_block hp (Or.inr (by rw [hs.op]; exact hi))
  rw [hfl, hs.key, hnc] at hblock
  generalize hwl : min 64 (s.len.toNat - 64 * m) = wl at *
  have hwl1 : 1 ≤ wl ∧ wl ≤ 64 ∧ 64 * m + wl ≤ s.len.toNat := by omega
  set e : State := { t with
    key := s.key, nc := ncAt s.nc m
    sfile := initState s.key (ncAt s.nc m), xfile := permute (initState s.key (ncAt s.nc m))
    ks := blockWords s.key (ncAt s.nc m), rnd := 20, wlen := wl, j := 0, phase := .emit } with he
  have heq : engineRun 22 t = .next e := hblock
  have hrun := run_emit (fun j => M (64 * m + j)) (fun j => T (64 * m + j)) .inc e rfl
    (by
      intro j hj
      have := hE m j { e with
          mem := M (64 * m + j), trace := T (64 * m + j), bytes := e.bytes + BitVec.ofNat 32 j, j := j }
        (by have : j < wl := hj; omega)
        ⟨rfl, hs.ie, hs.src, hs.dst, hs.len, hs.platform, hs.schedule, hs.op, hs.report⟩
        rfl rfl hoff rfl hj (by exact hwl1.2.1) rfl rfl
      rw [this]
      have hadd : e.bytes + BitVec.ofNat 32 j + 1 = e.bytes + BitVec.ofNat 32 (j + 1) := by
        rw [BitVec.add_assoc]; congr 1; apply BitVec.eq_of_toNat_eq; simp [BitVec.toNat_add]
      simp only [hadd]
      rfl)
    wl (by omega) (Nat.le_refl _)
  have hstart : ({ e with mem := M (64 * m + 0), trace := T (64 * m + 0), j := 0 } : State) = e := by
    rw [he]; simp [← hmem, ← htr]
  rw [hstart] at hrun
  refine ⟨_, engineRun_trans heq hrun, ⟨⟨rfl, hs.ie, hs.src, hs.dst, hs.len, hs.platform, hs.schedule, hs.op,
    hs.report⟩, rfl, ?_, rfl, rfl⟩, by simp [he], hoff, hec, rfl⟩
  change t.bytes + BitVec.ofNat 32 wl = _
  rw [hb]; apply BitVec.eq_of_toNat_eq; simp [BitVec.toNat_add]

/-- The INC micro-step after a window. -/
theorem run_inc {s : State} {i : Instr} {M : Nat → Memory} {T : Nat → List Event} (hi : isStream (some i) = true)
    {m n : Nat} {u : State} (hu : AtByte s i M T m n u) (hp : u.phase = .inc)
    (hoff : u.off = BitVec.ofNat 32 (64 * m)) (hec : u.ec = .none) (hw : 64 * m + u.wlen = n)
    (hn : n ≤ s.len.toNat) (hc : s.nc[0].toNat + m < 2 ^ 32) :
    ∃ v, engineStep u = .next v ∧ AtByte s i M T (m + 1) n v ∧ v.off = BitVec.ofNat 32 n ∧
      (s.nc[0].toNat + m = 2 ^ 32 - 1 → v.phase = .wipe ∧ v.ec = .ctrOverflow) ∧
      (s.nc[0].toNat + m < 2 ^ 32 - 1 → v.ec = .none ∧ v.phase = if n < s.len.toNat then .init else .wipe) := by
  have hlen := s.len.isLt
  obtain ⟨hs, hnc, hb, hmem, htr⟩ := hu
  have hoff' : u.off + BitVec.ofNat 32 u.wlen = BitVec.ofNat 32 n := by
    rw [hoff]; apply BitVec.eq_of_toNat_eq; simp [BitVec.toNat_add, hw]
  have hoffN : (BitVec.ofNat 32 n).toNat = n := by rw [BitVec.toNat_ofNat]; omega
  have hval : (ncAt s.nc m)[0] = 0xFFFFFFFF ↔ s.nc[0].toNat + m = 2 ^ 32 - 1 := by
    rw [← BitVec.toNat_inj, ncAt_toNat hc]; simp
  have hst : isStream u.op = true := by rw [hs.op]; exact hi
  rw [engineStep_inc hp (Or.inr hst), incNc_eq, hnc, hoff']
  by_cases ho : s.nc[0].toNat + m = 2 ^ 32 - 1
  · simp only [hval.2 ho, decide_true, if_true]
    refine ⟨_, rfl, ⟨⟨hs.key, hs.ie, hs.src, hs.dst, hs.len, hs.platform, hs.schedule, hs.op, hs.report⟩, ?_, hb,
      hmem, htr⟩, rfl, fun _ => ⟨rfl, rfl⟩, fun h => by omega⟩
    change (ncAt s.nc m).set 0 (0xFFFFFFFF + 1) = _
    rw [← ncAt_succ, hval.2 ho]
  · simp only [mt hval.1 ho, decide_false, Bool.false_eq_true, if_false]
    refine ⟨_, rfl, ⟨⟨hs.key, hs.ie, hs.src, hs.dst, hs.len, hs.platform, hs.schedule, hs.op, hs.report⟩,
      ncAt_succ _ _, hb, hmem, htr⟩, rfl, fun h => absurd h ho, fun _ => ⟨hec, ?_⟩⟩
    simp [incAfter, hst, hoff', hoffN, hs.len]

/-- The loop: from the start of window `m` to WIPE (spec 43_stream_xor.md R172, R175, R176). -/
theorem run_stream {s : State} {i : Instr} {M : Nat → Memory} {T : Nat → List Event} (hi : isStream (some i) = true)
    (hE : Emits s i M T) (k : Nat) {m : Nat} {t : State} (hk : windows (streamBytes s) - m = k)
    (ht : AtByte s i M T m (64 * m) t) (hp : t.phase = .init) (hoff : t.off = BitVec.ofNat 32 (64 * m))
    (hec : t.ec = .none) (hm : 64 * m < s.len.toNat) (hc : s.nc[0].toNat + m < 2 ^ 32) :
    ∃ w, engineRun (23 * k + (streamBytes s - 64 * m)) t = .next w ∧
      AtByte s i M T (windows (streamBytes s)) (streamBytes s) w ∧ w.phase = .wipe ∧
      w.ec = if streamOverflows s then .ctrOverflow else .none := by
  have hlen := s.len.isLt
  induction k generalizing m t with
  | zero => unfold windows streamBytes at hk; omega
  | succ k ih =>
    obtain ⟨u, hu, hua, hup, huo, hue, huw⟩ := run_window hi hE ht hp hoff hec hm
    obtain ⟨v, hv, hva, hvo, hov, hnv⟩ := run_inc hi hua hup huo hue (by rw [huw]) (by omega) hc
    have huv := (engineRun_snoc hu).trans hv
    by_cases ho : s.nc[0].toNat + m = 2 ^ 32 - 1
    · have hB : streamBytes s = 64 * m + min 64 (s.len.toNat - 64 * m) := by unfold streamBytes; omega
      have hW : windows (streamBytes s) = m + 1 := by rw [hB]; unfold windows; omega
      have hov' : streamOverflows s = true := by
        rw [streamOverflows, decide_eq_true_eq, windows]; omega
      refine ⟨v, ?_, by rw [hW, hB]; exact hva, (hov ho).1, by simp [hov', (hov ho).2]⟩
      rw [← huv]; congr 1; omega
    · have hlt : s.nc[0].toNat + m < 2 ^ 32 - 1 := by omega
      obtain ⟨hve, hvp⟩ := hnv hlt
      by_cases hmore : 64 * m + min 64 (s.len.toNat - 64 * m) < s.len.toNat
      · have hwl : 64 * m + min 64 (s.len.toNat - 64 * m) = 64 * (m + 1) := by omega
        rw [hwl] at hva hvo hmore
        rw [if_pos (by omega)] at hvp
        obtain ⟨w, hw, hwa, hwp, hwe⟩ := ih (m := m + 1) (t := v) (by omega) hva hvp hvo hve hmore (by omega)
        refine ⟨w, ?_, hwa, hwp, hwe⟩
        have hBig : 64 * (m + 1) ≤ streamBytes s := by unfold streamBytes; omega
        have := engineRun_trans huv hw
        rw [← this]; congr 1; omega
      · rw [if_neg hmore] at hvp
        have hB : streamBytes s = 64 * m + min 64 (s.len.toNat - 64 * m) := by unfold streamBytes; omega
        have hW : windows (streamBytes s) = m + 1 := by rw [hB]; unfold windows; omega
        have hov' : streamOverflows s = false := by
          rw [streamOverflows, decide_eq_false_iff_not, windows]; omega
        refine ⟨v, ?_, by rw [hW, hB]; exact hva, hvp, by simp [hov', hve]⟩
        rw [← huv]; congr 1; omega

end Sys2Proof.Machine
end

