-- ==== Sys2Proof/Laws/Command.lean ====
section
/-! SUPPORT. Whole commands: a stream from its CMD write to BUSY = 0, for any pair of memory and trace
functions that its EMIT micro-steps follow, and those functions for XOR and KSTREAM. -/

namespace Sys2Proof.Machine

/-- STATUS of a state in which a command has just ended. -/
theorem statusWord_idle {s : State} (hp : s.phase = .idle) (hg : s.ign = false) :
    statusWord s = (0 : BitVec 20) ++ s.ecode.code ++ (0 : BitVec 3) ++ 0#1 ++ BitVec.ofBool s.ovf ++
      BitVec.ofBool s.err ++ BitVec.ofBool s.done ++ 0#1 := by
  simp [statusWord, busy_eq_false.2 hp, hg]

/-- The end of a command that came without an error. -/
theorem wiped_status_ok {w : State} (hec : w.ec = .none)
    (hr : w.done = false ∧ w.err = false ∧ w.ovf = false ∧ w.ign = false ∧ w.ecode = .none) :
    statusWord (wiped w) = 0x00000002 := by
  obtain ⟨-, he, ho, hg, hc⟩ := hr
  rw [statusWord_idle (by rfl) (by exact hg)]
  simp [wiped, hec, he, ho, hc, ErrorCode.code]

/-- The end of a command that came with a counter overflow (spec 60_exceptions.md R203). -/
theorem wiped_status_overflow {w : State} (hec : w.ec = .ctrOverflow)
    (hr : w.done = false ∧ w.err = false ∧ w.ovf = false ∧ w.ign = false ∧ w.ecode = .none) :
    statusWord (wiped w) = 0x0000030C := by
  obtain ⟨hd, -, -, hg, -⟩ := hr
  rw [statusWord_idle (by rfl) (by exact hg)]
  simp [wiped, hec, hd, ErrorCode.code]

/-- What WIPE leaves of a stream. -/
theorem commandEnd_wiped {s w : State} {i : Instr} (h : InStream s i w)
    (hn : ∀ k : Fin 4, k ≠ 0 → w.nc[k] = s.nc[k]) : CommandEnd s (wiped w) :=
  ⟨h.key, hn, h.ie, h.src, h.dst, h.len, h.platform, h.schedule, rfl, rfl, rfl,
    rfl, rfl, rfl, rfl, rfl, rfl, rfl⟩

/-- A stream from its CMD write to BUSY = 0 (spec 43_stream_xor.md R166, R167, R172, R175, R176). -/
theorem stream_whole {s : State} {i : Instr} {M : Nat → Memory} {T : Nat → List Event}
    (hi : isStream (some i) = true) (hp : s.phase = .idle) (hok : rangeOk i s = true) (hE : Emits s i M T)
    (hM : M 0 = s.mem) (hT : T 0 = s.trace) :
    ∃ t u, exec i s = .next t ∧
      EndsAfter (23 * windows (streamBytes s) + streamBytes s + 1) t u ∧ CommandEnd s u ∧
      u.mem = M (streamBytes s) ∧ u.trace = T (streamBytes s) ∧ u.bytes.toNat = streamBytes s ∧
      u.nc = ncAt s.nc (windows (streamBytes s)) ∧ statusWord u = streamStatus s ∧
      u.done = !streamOverflows s := by
  have hlen := s.len.isLt
  have hfirst : firstPhase i s = streamFirst s := by cases i <;> simp_all [isStream, firstPhase]
  rw [exec_eq, startCommand_accepted hp hok, hfirst]
  have hfinish : ∀ w : State, AtByte s i M T (windows (streamBytes s)) (streamBytes s) w →
      w.ec = (if streamOverflows s then .ctrOverflow else .none) →
      CommandEnd s (wiped w) ∧ (wiped w).mem = M (streamBytes s) ∧ (wiped w).trace = T (streamBytes s) ∧
        (wiped w).bytes.toNat = streamBytes s ∧ (wiped w).nc = ncAt s.nc (windows (streamBytes s)) ∧
        statusWord (wiped w) = streamStatus s ∧ (wiped w).done = !streamOverflows s := by
    intro w hw hec
    refine ⟨commandEnd_wiped hw.stream fun k hk => ?_, hw.mem, hw.trace, ?_, hw.nc, ?_, ?_⟩
    · rw [hw.nc]
      exact ncAt_get _ _ _ k.isLt fun h => hk (Fin.ext h)
    · change w.bytes.toNat = _
      rw [hw.bytes, BitVec.toNat_ofNat]; unfold streamBytes; omega
    · unfold streamStatus
      cases ho : streamOverflows s <;> simp only [ho, Bool.false_eq_true, if_true, if_false] at hec ⊢
      · exact wiped_status_ok hec hw.stream.report
      · exact wiped_status_overflow hec hw.stream.report
    · change (if w.ec = .none then true else w.done) = _
      rw [hec, hw.stream.report.1]
      cases streamOverflows s <;> rfl
  by_cases hz : s.len = 0
  · have hB : streamBytes s = 0 := by simp [streamBytes, hz]
    have hO : streamOverflows s = false := by
      have := s.nc[0].isLt
      rw [streamOverflows, decide_eq_false_iff_not, hz]; simp [windows]; omega
    have hsf : streamFirst s = .wipe := by simp [streamFirst, hz]
    rw [hsf]
    have hend := endsAfter_of_wipe (n := 0) (t := { s with
      done := false, err := false, ovf := false, ign := false, ecode := .none, bytes := 0
      op := some i, rnd := 0, off := 0, j := 0, wlen := 0, ec := .none, phase := .wipe }) rfl rfl
    refine ⟨_, _, rfl, by rw [hB]; exact hend, ?_⟩
    refine hfinish _ ⟨⟨rfl, rfl, rfl, rfl, rfl, rfl, rfl, rfl, rfl, rfl, rfl, rfl, rfl⟩, ?_, ?_, ?_, ?_⟩
      (by simp [hO]) <;> rw [hB]
    · exact (ncAt_zero _).symm
    · rfl
    · exact hM.symm
    · exact hT.symm
  · have hsf : streamFirst s = .init := if_neg hz
    have hpos : 0 < s.len.toNat := Nat.pos_of_ne_zero fun h => hz (BitVec.eq_of_toNat_eq h)
    rw [hsf]
    obtain ⟨w, hw, hwa, hwp, hwe⟩ := run_stream hi hE _ (m := 0) (t := { s with
        done := false, err := false, ovf := false, ign := false, ecode := .none, bytes := 0
        op := some i, rnd := 0, off := 0, j := 0, wlen := 0, ec := .none, phase := .init }) rfl
      ⟨⟨rfl, rfl, rfl, rfl, rfl, rfl, rfl, rfl, rfl, rfl, rfl, rfl, rfl⟩, (ncAt_zero _).symm, rfl, hM.symm, hT.symm⟩
      rfl rfl rfl hpos s.nc[0].isLt
    exact ⟨_, _, rfl, endsAfter_of_wipe hw hwp, hfinish w hwa hwe⟩

/-! ### What EMIT makes, byte by byte -/

theorem keystream_window (s : State) (m j : Nat) (hj : j < 64) :
    keystream s (64 * m + j) = ser (blockWords s.key (ncAt s.nc m)) j := by
  have h1 : (64 * m + j) / 64 = m := by omega
  have h2 : (64 * m + j) % 64 = j := by omega
  rw [keystream, h1, h2]; rfl

/-- XOR reads and writes byte by byte (spec 20_memory.md R68). -/
theorem emits_xor {s : State} (hok : rangeOk .xor s = true) : Emits s .xor (xorMemory s) (xorTrace s) := by
  intro m j u hmj hs hp hks hoff hj hjw hw hmem htr
  have hlen := s.len.isLt
  simp only [rangeOk, rangeOkXor, rangeFits, Bool.and_eq_true, decide_eq_true_eq] at hok
  have hoffN : u.off.toNat = 64 * m := by rw [hoff, BitVec.toNat_ofNat]; omega
  have hia : inputAddr u = s.src.toNat + (64 * m + j) := by rw [inputAddr, hs.src, hoffN, hj]; omega
  have hoa : outputAddr u = s.dst.toNat + (64 * m + j) := by rw [outputAddr, hs.dst, hoffN, hj]; omega
  rw [engineStep_emit hp (by omega) hw, hs.op]
  simp only
  rw [emitXor_in (by rw [hia, hs.platform]; omega) (by rw [hoa, hs.platform]; omega), hia, hoa, hks, hj, hmem, htr,
    ← keystream_window s m j (by omega), hs.op]
  rfl

/-- Memory after `n` writes of `out o` to `DST + o`, o ascending. -/
def writeMemory (s : State) (out : Nat → Byte) : Nat → Memory
  | 0 => s.mem
  | n + 1 => memWrite (writeMemory s out n) (s.dst.toNat + n) (out n)

theorem memRead_writeMemory (s : State) (out : Nat → Byte) (n a : Nat) :
    memRead (writeMemory s out n) a =
      if s.dst.toNat ≤ a ∧ a < s.dst.toNat + n then out (a - s.dst.toNat) else memRead s.mem a := by
  induction n with
  | zero =>
    have h : ¬(s.dst.toNat ≤ a ∧ a < s.dst.toNat + 0) := by omega
    rw [if_neg h]; rfl
  | succ n ih =>
    rw [writeMemory, memRead_memWrite_eq, ih]
    by_cases h : a = s.dst.toNat + n
    · subst h; simp
    · rw [if_neg h]
      by_cases h1 : s.dst.toNat ≤ a ∧ a < s.dst.toNat + n
      · rw [if_pos h1, if_pos (by omega)]
      · rw [if_neg h1, if_neg (by omega)]

/-- KSTREAM writes byte by byte and reads nothing (spec 20_memory.md R68). -/
theorem emits_kstream {s : State} (hok : rangeOk .kstream s = true) :
    Emits s .kstream (writeMemory s (keystream s)) (writeTrace s (keystream s)) := by
  intro m j u hmj hs hp hks hoff hj hjw hw hmem htr
  have hlen := s.len.isLt
  simp only [rangeOk, rangeOkKstream, rangeFits, decide_eq_true_eq] at hok
  have hoffN : u.off.toNat = 64 * m := by rw [hoff, BitVec.toNat_ofNat]; omega
  have hoa : outputAddr u = s.dst.toNat + (64 * m + j) := by rw [outputAddr, hs.dst, hoffN, hj]; omega
  rw [engineStep_emit hp (by omega) hw, hs.op]
  simp only
  rw [emitKstream_in (by rw [hoa, hs.platform]; omega), hoa, hks, hj, hmem, htr, ← keystream_window s m j (by omega), hs.op]
  rfl

/-! ### XOR's memory in closed form -/

/-- No byte outside `[DST, DST + n)` changes. -/
theorem memRead_xorMemory_outside (s : State) (n a : Nat) (h : a < s.dst.toNat ∨ s.dst.toNat + n ≤ a) :
    memRead (xorMemory s n) a = memRead s.mem a := by
  induction n with
  | zero => rfl
  | succ n ih => rw [xorMemory, memRead_memWrite_of_ne _ _ (by omega), ih (by omega)]

/-- A byte written stays, and is the XOR of the input byte as it was when it was read. -/
theorem memRead_xorMemory_inside (s : State) (n o : Nat) (h : o < n) :
    memRead (xorMemory s n) (s.dst.toNat + o) = memRead (xorMemory s o) (s.src.toNat + o) ^^^ keystream s o := by
  induction n with
  | zero => omega
  | succ n ih =>
    by_cases ho : o = n
    · subst ho; rw [xorMemory, memRead_memWrite_same]
    · rw [xorMemory, memRead_memWrite_of_ne _ _ (by omega), ih (by omega)]

end Sys2Proof.Machine
end

