-- ==== Sys2Proof/Laws/PerInstr.lean ====
section
/-! SUPPORT. One fact per command about its encoding (spec 30_encoding.md R80 to R87): a command is well
formed, its word is a legal one, and the word decodes to the command and to no other. -/

namespace Sys2Proof.Laws.Encoding

/-- The word of `i` is legal and decodes to `i`, and every command has one word only. -/
def Statement (i : Instr) : Prop :=
  i.wellFormed = true ∧ wordWellFormed (encode i) = true ∧ decode (encode i) = .command i ∧
    decodeTableWord 32 (encode i).toNat = some i ∧ ∀ k, encode k = encode i → k = i

theorem block : Statement .block := ⟨rfl, by decide, by decide, by decide, fun k => by cases k <;> decide⟩

theorem xor : Statement .xor := ⟨rfl, by decide, by decide, by decide, fun k => by cases k <;> decide⟩

theorem kstream : Statement .kstream := ⟨rfl, by decide, by decide, by decide, fun k => by cases k <;> decide⟩

theorem ctrinc : Statement .ctrinc := ⟨rfl, by decide, by decide, by decide, fun k => by cases k <;> decide⟩

end Sys2Proof.Laws.Encoding
end

