-- ==== Sys2Proof/Laws/Step.lean ====
section
/-! SUPPORT. Everything a HOST action, a turn and a step can do, said once. -/

namespace Sys2Proof.Machine

theorem exec_busy {i : Instr} {s : State} (h : s.phase ≠ .idle) : exec i s = .next { s with ign := true } := by
  rw [exec_eq, startCommand_busy h]; rfl

theorem exec_accepted {i : Instr} {s : State} (h : s.phase = .idle) (hok : rangeOk i s = true) :
    exec i s = .next { s with
      done := false, err := false, ovf := false, ign := false, ecode := .none, bytes := 0
      op := some i, rnd := 0, off := 0, j := 0, wlen := 0, ec := .none, phase := firstPhase i s } := by
  rw [exec_eq, startCommand_accepted h hok]

theorem exec_rejected {i : Instr} {s : State} (h : s.phase = .idle) (hok : rangeOk i s = false) :
    exec i s = .next { s with
      done := false, err := true, ovf := false, ign := false, ecode := .range, bytes := 0 } := by
  rw [exec_eq, startCommand_rejected h hok]

theorem firstPhase_ne_idle (i : Instr) (s : State) : firstPhase i s ≠ .idle := by
  cases i <;> simp only [firstPhase, streamFirst] <;> (try split) <;> decide

/-- Everything a HOST action that goes on can be. -/
inductive HostStep (s : State) : HostAction → State → Prop where
  | dropped {addr : Nat} {w : Word} {r : Reg} (hr : regAt s.platform addr = some r) (hd : r.dropped = true)
      (hb : s.phase ≠ .idle) : HostStep s (.wr addr w) { s with ign := true }
  | ignored {addr : Nat} {w : Word} {r : Reg} (hr : regAt s.platform addr = some r) (hd : r.ignored = true) :
      HostStep s (.wr addr w) s
  | accepted {addr : Nat} {w : Word} {i : Instr} (hr : regAt s.platform addr = some .cmd)
      (hw : decode w = .command i) (hp : s.phase = .idle) (hok : rangeOk i s = true) :
      HostStep s (.wr addr w) { s with
        done := false, err := false, ovf := false, ign := false, ecode := .none, bytes := 0
        op := some i, rnd := 0, off := 0, j := 0, wlen := 0, ec := .none, phase := firstPhase i s }
  | rejected {addr : Nat} {w : Word} {c : ErrorCode} (hr : regAt s.platform addr = some .cmd)
      (hp : s.phase = .idle) (hc : c = .illegalCmd ∨ c = .range) :
      HostStep s (.wr addr w) { s with
        done := false, err := true, ovf := false, ign := false, ecode := c, bytes := 0 }
  | status {addr : Nat} {w : Word} (hr : regAt s.platform addr = some .status) :
      HostStep s (.wr addr w) (writeStatus w s)
  | cfg {addr : Nat} {w : Word} (hr : regAt s.platform addr = some .cfg) :
      HostStep s (.wr addr w) (writeCfg w s)
  | src {addr : Nat} {w : Word} (hr : regAt s.platform addr = some .src) (hp : s.phase = .idle) :
      HostStep s (.wr addr w) { s with src := w }
  | dst {addr : Nat} {w : Word} (hr : regAt s.platform addr = some .dst) (hp : s.phase = .idle) :
      HostStep s (.wr addr w) { s with dst := w }
  | len {addr : Nat} {w : Word} (hr : regAt s.platform addr = some .len) (hp : s.phase = .idle) :
      HostStep s (.wr addr w) { s with len := w }
  | key {addr : Nat} {w : Word} {k : Fin 8} (hr : regAt s.platform addr = some (.key k)) (hp : s.phase = .idle) :
      HostStep s (.wr addr w) { s with key := s.key.set k w }
  | nc {addr : Nat} {w : Word} {k : Fin 4} (hr : regAt s.platform addr = some (.nc k)) (hp : s.phase = .idle) :
      HostStep s (.wr addr w) { s with nc := s.nc.set k w }
  | regRead {addr : Nat} {r : Reg} (hr : regAt s.platform addr = some r) :
      HostStep s (.rd addr) { s with trace := .hostRegRead addr (readReg r s) :: s.trace }
  | memRead {a : Nat} (ha : a < 2 ^ s.platform.addrW) :
      HostStep s (.mrd a) { s with trace := .hostMemRead a (memRead s.mem a) :: s.trace }
  | memWrite {a : Nat} {v : Byte} (ha : a < 2 ^ s.platform.addrW) :
      HostStep s (.mwr a v) { s with mem := memWrite s.mem a v, trace := .hostMemWrite a v :: s.trace }

theorem hostWrite_cases {s t : State} {addr : Nat} {w : Word} {r : Reg} (hr : regAt s.platform addr = some r)
    (h : writeReg r w s = .next t) : HostStep s (.wr addr w) t := by
  cases r <;> simp only [writeReg] at h
  case cmd =>
    by_cases hp : s.phase = .idle
    · unfold writeCmd at h
      split at h
      · next i hw =>
        cases hok : rangeOk i s
        · rw [exec_rejected hp hok] at h; cases h; exact .rejected hr hp (Or.inr rfl)
        · rw [exec_accepted hp hok] at h; cases h; exact .accepted hr hw hp hok
      · rw [rejectIllegal_idle hp] at h; cases h; exact .rejected hr hp (Or.inl rfl)
    · unfold writeCmd at h
      split at h
      · rw [exec_busy hp] at h; cases h; exact .dropped hr rfl hp
      · rw [rejectIllegal_busy hp] at h; cases h; exact .dropped hr rfl hp
  case status => cases h; exact .status hr
  case cfg => cases h; exact .cfg hr
  case bytes => cases h; exact .ignored hr rfl
  case ksw => cases h; exact .ignored hr rfl
  case reserved => cases h; exact .ignored hr rfl
  all_goals
    by_cases hp : s.phase = .idle
    · rw [unlessBusy_idle hp] at h; cases h; constructor <;> assumption
    · rw [unlessBusy_busy hp] at h; cases h; exact .dropped hr rfl hp

/-- The inversion lemma of `hostStep`. -/
theorem hostStep_cases {s t : State} {a : HostAction} (h : hostStep a s = .next t) : HostStep s a t := by
  cases a <;> simp only [hostStep] at h
  case wr addr v =>
    split at h
    · next r hr => exact hostWrite_cases hr h
    · cases h
  case rd addr =>
    split at h
    · next r hr => cases h; exact .regRead hr
    · cases h
  case mwr a b =>
    unfold hostMemWrite at h
    split at h
    · next hb => cases h; exact .memWrite (hasByte_iff.1 hb)
    · cases h
  case mrd a =>
    unfold hostMemRead at h
    split at h
    · next hb => cases h; exact .memRead (hasByte_iff.1 hb)
    · cases h
  case regOther => cases h

/-- The state from which the turn of a step runs: the turn has been taken out of the schedule. -/
def afterTurn (s : State) : State := { s with schedule := s.schedule.tail }

/-- Everything a step that goes on can be. -/
inductive StepKind (s : State) : State → Prop where
  | engine {t : State} (hs : s.schedule = [] ∨ ∃ rest, s.schedule = .engine :: rest)
      (h : MicroStep (afterTurn s) t) : StepKind s t
  | reset {rest : List Turn} (hs : s.schedule = .reset :: rest) : StepKind s (resetDevice (afterTurn s))
  | host {a : HostAction} {rest : List Turn} {t : State} (hs : s.schedule = .host a :: rest)
      (h : HostStep (afterTurn s) a t) : StepKind s t

/-- The inversion lemma of `step`. -/
theorem step_cases {s t : State} (h : step s = .next t) : StepKind s t := by
  unfold step nextTurn at h
  split at h
  · next hs =>
    have he : afterTurn s = s := by cases s; simp_all [afterTurn]
    exact .engine (Or.inl hs) (by rw [he]; exact engineStep_cases h)
  · next turn rest hs =>
    have he : { s with schedule := rest } = afterTurn s := by simp [afterTurn, hs]
    rw [he] at h
    cases turn with
    | host a => exact .host hs (hostStep_cases h)
    | engine => exact .engine (Or.inr ⟨rest, hs⟩) (engineStep_cases h)
    | reset => cases h; exact .reset hs

/-- A step whose schedule begins with a turn runs that turn. -/
theorem step_turn {s : State} {turn : Turn} {rest : List Turn} (hs : s.schedule = turn :: rest) :
    step s = turnStep turn { s with schedule := rest } := by
  simp [step, nextTurn, hs]

/-- A register's own address selects it. -/
@[simp] theorem regAt_addrOf (p : Platform) (r : Reg) : regAt p (addrOf p r) = some r := by
  have hoff : r.offset < 256 := by cases r <;> simp only [Reg.offset] <;> omega
  have hidx : regOfIndex (r.offset / 4) = r := by
    cases r with
    | key i => revert i; decide
    | nc i => revert i; decide
    | ksw i => revert i; decide
    | _ => decide
  simp [regAt, addrOf, Config.windowBytes, hoff, hidx]

/-- A HOST write, at any address that selects the register. -/
theorem step_write {s : State} {addr : Nat} {r : Reg} {w : Word} {rest : List Turn}
    (hs : s.schedule = .host (.wr addr w) :: rest) (hr : regAt s.platform addr = some r) :
    step s = writeReg r w { s with schedule := rest } := by
  rw [step_turn hs]
  simp only [turnStep, hostStep, hr]

/-- A HOST read, at any address that selects the register. -/
theorem step_read {s : State} {addr : Nat} {r : Reg} {rest : List Turn}
    (hs : s.schedule = .host (.rd addr) :: rest) (hr : regAt s.platform addr = some r) :
    step s = .next { s with schedule := rest, trace := .hostRegRead addr (readReg r s) :: s.trace } := by
  rw [step_turn hs]
  simp only [turnStep, hostStep, hr]
  cases r <;> rfl

/-- With no turn left ENGINE takes the step. -/
theorem step_nil {s : State} (hs : s.schedule = []) : step s = engineStep s := by
  simp [step, nextTurn, hs]

end Sys2Proof.Machine
end

