-- ==== Sys2Proof/Tests/Slice0.lean ====
section
/-! SUPPORT. Tests whose expected results come from spec/95_test_vectors.md or from the encoding rules, the
WellFormed smoke test, and a witness for the hypotheses of each obligation. -/

namespace Sys2Proof.Tests

open Sys2Proof Sys2Proof.Machine

/-! ### Small states -/

/-- An idle machine with the given NC0 and operands. -/
def idleAt (nc0 src dst len : Word) : State :=
  { State.reset with nc := #v[nc0, 0x11111111, 0x22222222, 0x33333333], src := src, dst := dst, len := len }

/-- A machine in a running command. -/
def busyAt (i : Instr) (p : Phase) : State := { State.reset with op := some i, phase := p }

/-- What `f` sees in the next state. -/
def look {α : Type} (r : Result) (f : State → α) : Option α :=
  match r with
  | .next t => some (f t)
  | .fault _ => none
  | .refused _ => none

/-- A machine with HOST turns to come. -/
def withTurns (s : State) (ts : List Turn) : State := { s with schedule := ts }

/-! ### WellFormed, and an ill-formed term for each check -/

theorem test_words_wellFormed :
    ([0x1, 0x2, 0x3, 0x4] : List Word).all wordWellFormed = true := by decide

/-- OP = 0x0 is below the map (30_encoding.md R85). -/
theorem test_word_opcode_zero : wordWellFormed 0x00000000 = false := by decide

/-- OP = 0x5 is above the map (30_encoding.md R85). -/
theorem test_word_opcode_five : wordWellFormed 0x00000005 = false := by decide

/-- RSV is not 0 (30_encoding.md R85). -/
theorem test_word_reserved : wordWellFormed 0x00000012 = false ∧ wordWellFormed 0x80000001 = false := by decide

theorem test_platform_default : Platform.default.wellFormed = true := by decide

/-- P_ADDR_W below and above its bounds (00_scope.md R8). -/
theorem test_platform_bounds : Platform.wellFormed ⟨0, 0⟩ = false ∧ Platform.wellFormed ⟨33, 0⟩ = false := by decide

theorem test_commands_wellFormed : [Instr.block, .xor, .kstream, .ctrinc].all Instr.wellFormed = true := by decide

/-! ### Words written out bit by bit from 30_encoding.md R80 and R83 -/

theorem test_decode_block : decode 0b00000000000000000000000000000001#32 = .command .block := by decide

theorem test_decode_xor : decode 0b00000000000000000000000000000010#32 = .command .xor := by decide

theorem test_decode_kstream : decode 0b00000000000000000000000000000011#32 = .command .kstream := by decide

theorem test_decode_ctrinc : decode 0b00000000000000000000000000000100#32 = .command .ctrinc := by decide

/-- V-E1. -/
theorem test_decode_illegal :
    decode 0x00000006 = .illegal .reservedOpcode ∧ decode 0x00000010 = .illegal .reservedBitsSet ∧
    decode 0xFFFFFFFF = .illegal .reservedBitsSet := by decide

theorem test_table_words :
    decodeTableWord 32 1 = some .block ∧ decodeTableWord 32 2 = some .xor ∧
    decodeTableWord 32 3 = some .kstream ∧ decodeTableWord 32 4 = some .ctrinc ∧
    decodeTableWord 32 0 = none ∧ decodeTableWord 33 0x100000001 = none := by decide

/-! ### The datapath, against 95_test_vectors.md -/

/-- V-L1. -/
theorem test_le32 : le32 0x00 0x01 0x02 0x03 = 0x03020100 ∧ le32 0x00 0x00 0x00 0x80 = 0x80000000 := by decide

/-- V-L1. -/
theorem test_byteOf : [0, 1, 2, 3].map (byteOf 0xade0b876) = [0x76, 0xb8, 0xe0, 0xad] := by decide

/-- E1: the ASCII bytes "expand 32-byte k". -/
theorem test_sigma : sigma =
    #v[le32 0x65 0x78 0x70 0x61, le32 0x6e 0x64 0x20 0x33, le32 0x32 0x2d 0x62 0x79, le32 0x74 0x65 0x20 0x6b] := by
  decide

/-- V-L1: the NC bytes. -/
theorem test_nc_bytes :
    ncOfBytes #v[0x01, 0x00, 0x00, 0x00, 0x00, 0x00, 0x00, 0x09, 0x00, 0x00, 0x00, 0x4a, 0x00, 0x00, 0x00, 0x00] =
      #v[0x00000001, 0x09000000, 0x4a000000, 0x00000000] := by decide

/-- V-Q1. -/
theorem test_qr : qr 0x11111111 0x01020304 0x9b8d6f43 0x01234567 =
    (0xea2a92f4, 0xcb1cf8ce, 0x4581472e, 0x5881c4bb) := by decide

/-- V-Q3: all ones. -/
theorem test_qr_wraps : qr 0xffffffff 0xffffffff 0xffffffff 0xffffffff =
    (0xf0000ffd, 0x88790878, 0x0110fdef, 0x010ffdf0) := by decide

/-- V-R1: a column round. -/
theorem test_round_columns : roundFn #v[0, 1, 2, 3, 4, 5, 6, 7, 8, 9, 10, 11, 12, 13, 14, 15] 0 =
    #v[0x8000c004, 0xb000c006, 0x6000c008, 0x5000c00a, 0x64624444, 0xe5e35cdd, 0x63643533, 0xe2e52daa,
      0x08c80488, 0x0bcb06b9, 0x06c6086a, 0x05c50a5b, 0x08c00480, 0x0bc006b0, 0x06c00860, 0x05c00a50] := by
  decide

/-- V-R1: a diagonal round. -/
theorem test_round_diagonals : roundFn #v[0, 1, 2, 3, 4, 5, 6, 7, 8, 9, 10, 11, 12, 13, 14, 15] 1 =
    #v[0xa000f005, 0xb000d007, 0x4000f009, 0x9000d007, 0xecebcccc, 0x7d7ad555, 0xedebdddd, 0x7a7ca422,
      0x04f40948, 0x09d90799, 0x0afa05aa, 0x0bdb07bb, 0x0bd007b0, 0x04f00940, 0x09d00790, 0x0af005a0] := by
  decide

/-- V-B2: KS after FEED, KEY = 00..1f. -/
theorem test_block_words :
    blockWords #v[0x03020100, 0x07060504, 0x0b0a0908, 0x0f0e0d0c, 0x13121110, 0x17161514, 0x1b1a1918, 0x1f1e1d1c]
        #v[0x00000001, 0x09000000, 0x4a000000, 0x00000000] =
      #v[0xe4e7f110, 0x15593bd1, 0x1fdd0f50, 0xc47120a3, 0xc7f4d1c7, 0x0368c033, 0x9aaa2204, 0x4e6cd4c3,
        0x466482d2, 0x09aa9f07, 0x05d7c214, 0xa2028bd9, 0xd19c12b5, 0xb94e16de, 0xe883d0cb, 0x4e3c50a2] := by
  decide +kernel

/-- V-B2: the first output bytes are the low bytes of word 0 first. -/
theorem test_ser :
    [0, 1, 2, 3, 4].map (ser (#v[0xe4e7f110, 0x15593bd1, 0, 0, 0, 0, 0, 0, 0, 0, 0, 0, 0, 0, 0, 0] : Vector Word 16)) =
      [0x10, 0xf1, 0xe7, 0xe4, 0xd1] := by decide

/-- V-C1: the carry stops in byte 1. -/
theorem test_increment_carry : incNc #v[0x000000ff, 1, 2, 3] = (#v[0x00000100, 1, 2, 3], false) := by decide

/-- V-C1: the carry leaves byte 3. -/
theorem test_increment_overflow : incNc #v[0xffffffff, 1, 2, 3] = (#v[0x00000000, 1, 2, 3], true) := by decide

/-! ### One step of each command -/

/-- V-E1: each row of the table runs as the first instruction after reset, and STATUS shows BUSY. -/
theorem test_first_step :
    [1, 2, 3, 4].map (fun w => look (step (State.reset.withFetchWord 32 w)) fun t => (t.op, t.phase, statusWord t)) =
      [some (some .block, .init, 1), some (some .xor, .wipe, 1), some (some .kstream, .wipe, 1),
        some (some .ctrinc, .inc, 1)] := by decide

/-- V-E2: BLOCK at the top of memory is accepted, and one byte further is not. -/
theorem test_block_range :
    look (exec .block (idleAt 0 0 0xffffffc0 0)) statusWord = some 0x00000001 ∧
    look (exec .block (idleAt 0 0 0xffffffc1 0)) statusWord = some 0x00000204 := by decide

/-- V-E2. -/
theorem test_xor_range :
    look (exec .xor (idleAt 0 0xffffff00 0 0x100)) statusWord = some 0x00000001 ∧
    look (exec .xor (idleAt 0 0xffffff00 0 0x101)) statusWord = some 0x00000204 ∧
    look (exec .xor (idleAt 0 0 0xffffff00 0x101)) statusWord = some 0x00000204 := by decide

/-- V-E2: SRC is not range-checked. -/
theorem test_kstream_range :
    look (exec .kstream (idleAt 0 0xffffffff 0 2)) statusWord = some 0x00000001 ∧
    look (exec .kstream (idleAt 0 0 0xffffffff 2)) statusWord = some 0x00000204 := by decide

/-- V-E2. -/
theorem test_ctrinc_range :
    look (exec .ctrinc (idleAt 0 0xffffffff 0xffffffff 0xffffffff)) statusWord = some 0x00000001 := by decide

/-- V-E1: an illegal word. -/
theorem test_illegal_step :
    look (step (State.reset.withFetchWord 32 0x12)) statusWord = some 0x00000104 := by decide

/-- V-C2, last row: the INC micro-step of CTRINC. -/
theorem test_ctrinc_inc :
    look (engineStep { idleAt 0xffffffff 0 0 0 with op := some .ctrinc, phase := .inc }) (fun t => (t.nc, t.ec, t.phase)) =
      some (#v[0, 0x11111111, 0x22222222, 0x33333333], .ctrOverflow, .wipe) := by decide

/-- V-C2, last row: WIPE reports it. -/
theorem test_ctrinc_wipe :
    look (engineStep { idleAt 0 0 0 0 with op := some .ctrinc, phase := .wipe, ec := .ctrOverflow }) statusWord =
      some 0x0000030c := by decide

/-- V-S9, DST = SRC + 2, byte 2: the input byte is the one that output byte 0 replaced. -/
theorem test_xor_emit :
    look (engineStep { idleAt 0 0x100 0x102 6 with
        op := some .xor, phase := .emit, j := 2, wlen := 6, ks := Vector.replicate 16 0xade0b876
        mem := [(0x100, 0x10), (0x101, 0x21), (0x102, 0x66), (0x103, 0x99)] })
      (fun t => (memRead t.mem 0x104, t.j, t.phase)) = some (0x86, 3, .emit) := by decide

/-- V-S10 with the input byte taken as 0: the only byte of a KSTREAM window, then INC. -/
theorem test_kstream_emit :
    look (engineStep { idleAt 0 0x100 0x200 1 with
        op := some .kstream, phase := .emit, j := 0, wlen := 1, ks := Vector.replicate 16 0xade0b876
        mem := [(0x100, 0xff)] })
      (fun t => (memRead t.mem 0x200, t.bytes, t.phase)) = some (0x76, 1, .inc) := by decide

/-- V-B1: byte 63 of BLOCK is 0x86, and WIPE comes next. -/
theorem test_block_emit :
    look (engineStep { idleAt 0 0 0xffffffc0 0 with
        op := some .block, phase := .emit, j := 63, wlen := 64, ks := Vector.replicate 16 0x8665eeb2 })
      (fun t => (memRead t.mem 0xffffffff, t.phase)) = some (0x86, .wipe) := by decide

/-- V-E4, rows 3 and 5. -/
theorem test_status_w1c :
    statusWord (writeStatus 0x8 { State.reset with err := true, ovf := true, ecode := .ctrOverflow }) = 0x00000304 ∧
    statusWord (writeStatus 0x4 { State.reset with err := true, ecode := .ctrOverflow }) = 0x00000000 := by decide

/-- V-E3: a write dropped while BUSY leaves BUSY and IGN. -/
theorem test_dropped_write :
    look (step (withTurns (busyAt .block .round) [wrReg .default .dst 0x5000])) (fun t => (t.dst, statusWord t)) =
      some (0, 0x00000011) := by decide

/-- V-E5: ILLEGAL_CMD raises IRQ in its own step. -/
theorem test_irq :
    look (step (withTurns { State.reset with ie := true } [wrReg .default .cmd 0])) State.irq = some true := by decide

/-- V-Z2: reset during a command. -/
theorem test_reset_turn :
    look (step (withTurns { busyAt .xor .emit with bytes := 8, mem := [(0x200, 0x76)] } [.reset]))
      (fun t => (statusWord t, t.bytes, memRead t.mem 0x200)) = some (0, 0, 0x76) := by decide

/-! ### Witnesses: the hypotheses of each obligation can be met -/

theorem witness_StepRunsWrittenCommand :
    let s := withTurns State.reset [.host (.wr 3 0x4), .engine]
    s.schedule = .host (.wr 3 0x4) :: [.engine] ∧ regAt s.platform 3 = some .cmd ∧ decode 0x4 = .command .ctrinc := by
  decide

theorem witness_FetchedWordRuns :
    decodeTableWord 32 0x1 = some .block ∧ decodeTableWord 32 0x2 = some .xor ∧
    decodeTableWord 32 0x3 = some .kstream ∧ decodeTableWord 8 0x4 = some .ctrinc := by decide

/-- Both clauses: BUSY and idle. -/
theorem witness_IllegalWordRejected :
    (let s := withTurns State.reset [.host (.wr 0 0x12)]
     s.schedule = .host (.wr 0 0x12) :: [] ∧ regAt s.platform 0 = some .cmd ∧
      decode 0x12 = .illegal .reservedBitsSet ∧ s.phase = .idle) ∧
    (let s := withTurns (busyAt .block .round) [.host (.wr 0 0x0)]
     s.schedule = .host (.wr 0 0x0) :: [] ∧ regAt s.platform 0 = some .cmd ∧
      decode 0x0 = .illegal .reservedOpcode ∧ s.phase ≠ .idle) := by decide

/-- `DST + 64 = 2^P_ADDR_W`, at P_ADDR_W = 32 and at the smallest P_ADDR_W that holds a block. -/
theorem witness_BlockAccepted :
    (let s := idleAt 0 0 0xffffffc0 0
     s.phase = .idle ∧ s.dst.toNat + 64 ≤ 2 ^ s.platform.addrW) ∧
    (let s := ({ State.reset with platform := ⟨6, 0⟩ } : State)
     s.phase = .idle ∧ s.dst.toNat + 64 ≤ 2 ^ s.platform.addrW) := by decide

theorem witness_BlockWholeCommand :
    let s := idleAt 0 0 0xffffffc0 0
    s.phase = .idle ∧ s.dst.toNat + 64 ≤ 2 ^ s.platform.addrW := by decide

/-- XOR and KSTREAM at the edge of memory, and with LEN = 0. -/
theorem witness_StreamsAccepted :
    (let s := idleAt 0 0xffffff00 0xffffff00 0x100
     s.phase = .idle ∧ s.dst.toNat + s.len.toNat ≤ 2 ^ s.platform.addrW ∧
      s.src.toNat + s.len.toNat ≤ 2 ^ s.platform.addrW) ∧
    (let s := idleAt 0 0xffffffff 0xffffffff 0
     s.phase = .idle ∧ s.dst.toNat + s.len.toNat ≤ 2 ^ s.platform.addrW ∧
      s.src.toNat + s.len.toNat ≤ 2 ^ s.platform.addrW ∧ s.len.toNat = 0) := by decide

theorem witness_CtrincAccepted : State.reset.phase = .idle := by decide

/-- With and without a counter overflow. -/
theorem witness_CtrincWholeCommand :
    (let s := idleAt 0xffffffff 0 0 0; s.phase = .idle ∧ s.nc[0] = 0xffffffff) ∧
    (let s := idleAt 0xfffffffe 0 0 0; s.phase = .idle ∧ s.nc[0] ≠ 0xffffffff) := by decide

/-- One byte past the edge, for each of the four checks. -/
theorem witness_RangeRejected :
    (let s := idleAt 0 0 0xffffffc1 0
     s.phase = .idle ∧ 2 ^ s.platform.addrW < s.dst.toNat + 64) ∧
    (let s := idleAt 0 0xffffff00 0 0x101
     s.phase = .idle ∧ 2 ^ s.platform.addrW < s.src.toNat + s.len.toNat) ∧
    (let s := idleAt 0 0 0xffffff00 0x101
     s.phase = .idle ∧ 2 ^ s.platform.addrW < s.dst.toNat + s.len.toNat) := by decide

theorem witness_CommandWriteFrame (i : Instr) : ∃ t, exec i State.reset = .next t := by
  cases i <;> exact ⟨_, rfl⟩

/-- A stream that overflows the counter, and one that ends with DONE. -/
theorem witness_XorWholeCommand :
    (let s := idleAt 0xfffffffe 0x4000 0x5000 200
     s.phase = .idle ∧ s.src.toNat + s.len.toNat ≤ 2 ^ s.platform.addrW ∧
      s.dst.toNat + s.len.toNat ≤ 2 ^ s.platform.addrW ∧ streamOverflows s = true) ∧
    (let s := idleAt 1 0x4000 0x5000 200
     s.phase = .idle ∧ s.src.toNat + s.len.toNat ≤ 2 ^ s.platform.addrW ∧
      s.dst.toNat + s.len.toNat ≤ 2 ^ s.platform.addrW ∧ streamOverflows s = false) := by decide

/-- XOR in place, XOR with the output just after the input, and KSTREAM with a SRC that is no address of
the range. -/
theorem witness_StreamClosedForm :
    (let s := idleAt 1 0x100 0x100 6
     s.phase = .idle ∧ s.src.toNat + s.len.toNat ≤ 2 ^ s.platform.addrW ∧
      s.dst.toNat + s.len.toNat ≤ 2 ^ s.platform.addrW ∧ ¬OutputRunsIntoInput s) ∧
    (let s := idleAt 0xffffffff 0x100 0x106 6
     s.phase = .idle ∧ s.src.toNat + s.len.toNat ≤ 2 ^ s.platform.addrW ∧
      s.dst.toNat + s.len.toNat ≤ 2 ^ s.platform.addrW ∧ ¬OutputRunsIntoInput s) ∧
    (let s := idleAt 0 0xffffffff 0x8000 70
     s.phase = .idle ∧ s.dst.toNat + s.len.toNat ≤ 2 ^ s.platform.addrW) := by decide

/-- The nearest and the farthest overlap of the third case. -/
theorem witness_XorForwardOverlap :
    (let s := idleAt 1 0x100 0x101 6
     s.phase = .idle ∧ s.src.toNat + s.len.toNat ≤ 2 ^ s.platform.addrW ∧
      s.dst.toNat + s.len.toNat ≤ 2 ^ s.platform.addrW ∧ OutputRunsIntoInput s) ∧
    (let s := idleAt 1 0x100 0x105 6
     s.phase = .idle ∧ s.src.toNat + s.len.toNat ≤ 2 ^ s.platform.addrW ∧
      s.dst.toNat + s.len.toNat ≤ 2 ^ s.platform.addrW ∧ OutputRunsIntoInput s) := by decide

theorem witness_KstreamWholeCommand :
    let s := idleAt 0 0xffffffff 0x8000 70
    s.phase = .idle ∧ s.dst.toNat + s.len.toNat ≤ 2 ^ s.platform.addrW := by decide

theorem witness_ZeroLengthStream :
    let s := idleAt 7 0xffffffff 0xffffffff 0
    s.phase = .idle ∧ s.len = 0 ∧ s.src.toNat ≤ 2 ^ s.platform.addrW ∧ s.dst.toNat ≤ 2 ^ s.platform.addrW := by
  decide

theorem witness_KstreamIsXorOfZeros :
    let s := idleAt 0 0x100 0x200 3
    s.phase = .idle ∧ s.src.toNat + s.len.toNat ≤ 2 ^ s.platform.addrW ∧
      s.dst.toNat + s.len.toNat ≤ 2 ^ s.platform.addrW ∧ ¬OutputRunsIntoInput s ∧
      ∀ o < s.len.toNat, memRead s.mem (s.src.toNat + o) = 0 := by decide

/-- A split in the middle, one at the end of the stream, and one that leaves the first command the last
counter value that does not overflow. -/
theorem witness_ChunkedStreamEqualsWhole :
    (let s := idleAt 1 0x100 0x200 200
     s.platform.wellFormed = true ∧ s.phase = .idle ∧ s.src.toNat + s.len.toNat ≤ 2 ^ s.platform.addrW ∧
      s.dst.toNat + s.len.toNat ≤ 2 ^ s.platform.addrW ∧ 64 * 1 ≤ s.len.toNat ∧
      s.nc[0].toNat + 1 ≤ 2 ^ 32 - 1) ∧
    (let s := idleAt 0xfffffffd 0xffffff80 0x200 128
     s.platform.wellFormed = true ∧ s.phase = .idle ∧ s.src.toNat + s.len.toNat ≤ 2 ^ s.platform.addrW ∧
      s.dst.toNat + s.len.toNat ≤ 2 ^ s.platform.addrW ∧ 64 * 2 ≤ s.len.toNat ∧
      s.nc[0].toNat + 2 ≤ 2 ^ 32 - 1) := by decide

/-- The second command in place, and back over the first one's input; the first one with DONE, and with an
overflow. -/
theorem witness_XorTwiceGivesInputBack :
    (let s := idleAt 1 0x2000 0x3000 114
     s.phase = .idle ∧ s.src.toNat + s.len.toNat ≤ 2 ^ s.platform.addrW ∧
      s.dst.toNat + s.len.toNat ≤ 2 ^ s.platform.addrW ∧ 0x3000 + s.len.toNat ≤ 2 ^ s.platform.addrW ∧
      ¬OutputRunsIntoInput s ∧ ¬OutputRunsIntoInput { s with src := s.dst, dst := 0x3000 } ∧
      s.nc[0].toNat + windows s.len.toNat ≤ 2 ^ 32 - 1) ∧
    (let s := idleAt 0xfffffffe 0x2000 0x3000 129
     s.phase = .idle ∧ s.src.toNat + s.len.toNat ≤ 2 ^ s.platform.addrW ∧
      s.dst.toNat + s.len.toNat ≤ 2 ^ s.platform.addrW ∧ 0x2000 + s.len.toNat ≤ 2 ^ s.platform.addrW ∧
      ¬OutputRunsIntoInput s ∧ ¬OutputRunsIntoInput { s with src := s.dst, dst := 0x2000 } ∧
      ¬s.nc[0].toNat + windows s.len.toNat ≤ 2 ^ 32 - 1) := by decide

/-- A stream of length 0 ends with DONE. -/
theorem witness_CounterStrictlyIncreases :
    ∃ u, State.reset.phase = .idle ∧ rangeOk .kstream State.reset = true ∧ Completes .kstream State.reset u ∧
      u.done = true :=
  ⟨_, rfl, rfl, ⟨_, 1, exec_accepted rfl rfl, endsAfter_of_wipe (n := 0) rfl rfl⟩, rfl⟩

theorem witness_InitMicroStep : (busyAt .block .init).phase = .init := by decide

/-- The first and the last round. -/
theorem witness_RoundMicroStep :
    (busyAt .block .round).phase = .round ∧ (busyAt .block .round).rnd < 20 ∧
    ({ busyAt .block .round with rnd := 19 } : State).rnd < 20 := by decide

theorem witness_FeedMicroStep :
    (let s := busyAt .block .feed; s.phase = .feed ∧ s.op = some .block) ∧
    (let s := busyAt .xor .feed; s.phase = .feed ∧ s.op = some .xor) ∧
    (let s := busyAt .kstream .feed; s.phase = .feed ∧ s.op = some .kstream) := by decide

/-- The last byte of a full window, at the last address, for each command that has EMIT. -/
theorem witness_EmitMicroStep :
    (let s := { busyAt .block .emit with dst := 0xffffffc0, wlen := 64, j := 63 }
     s.phase = .emit ∧ s.j < s.wlen ∧ s.wlen ≤ 64 ∧ s.op = some .block ∧
      s.dst.toNat + s.j < 2 ^ s.platform.addrW) ∧
    (let s := { busyAt .xor .emit with src := 0xffffff80, dst := 0xffffff80, off := 64, wlen := 64, j := 63 }
     s.phase = .emit ∧ s.j < s.wlen ∧ s.wlen ≤ 64 ∧ s.op = some .xor ∧
      s.src.toNat + s.off.toNat + s.j < 2 ^ s.platform.addrW ∧
      s.dst.toNat + s.off.toNat + s.j < 2 ^ s.platform.addrW) ∧
    (let s := { busyAt .kstream .emit with dst := 0xffffffff, wlen := 1 }
     s.phase = .emit ∧ s.j < s.wlen ∧ s.wlen ≤ 64 ∧ s.op = some .kstream ∧
      s.dst.toNat + s.off.toNat + s.j < 2 ^ s.platform.addrW) := by decide

/-- For each command that has INC, and with an overflow. -/
theorem witness_IncMicroStep :
    (let s := busyAt .xor .inc; s.phase = .inc ∧ s.op = some .xor ∧ s.nc[0] ≠ 0xffffffff) ∧
    (let s := busyAt .kstream .inc; s.phase = .inc ∧ s.op = some .kstream ∧ s.nc[0] ≠ 0xffffffff) ∧
    (let s := busyAt .ctrinc .inc; s.phase = .inc ∧ s.op = some .ctrinc ∧ s.nc[0] ≠ 0xffffffff) ∧
    (let s := { busyAt .xor .inc with nc := #v[0xffffffff, 0, 0, 0] }
     s.phase = .inc ∧ s.op = some .xor ∧ s.nc[0] = 0xffffffff) := by decide

/-- Without an error, with a counter overflow, and with another code. -/
theorem witness_WipeMicroStep :
    (let s := busyAt .xor .wipe; s.phase = .wipe ∧ s.ec = .none) ∧
    (let s := { busyAt .xor .wipe with ec := .ctrOverflow }; s.phase = .wipe ∧ s.ec = .ctrOverflow) ∧
    (let s := { busyAt .xor .wipe with ec := .range }; s.phase = .wipe ∧ s.ec ≠ .none ∧ s.ec ≠ .ctrOverflow) := by
  decide

/-- Each clause, in an idle state and in a busy one that ENGINE's turn moves. -/
theorem witness_IdleEngineKeepsState :
    (State.reset.phase = .idle ∧ State.reset.schedule = [] ∧
      (withTurns State.reset [.engine]).schedule = .engine :: []) ∧
    ((busyAt .ctrinc .inc).phase ≠ .idle ∧ (busyAt .ctrinc .inc).schedule = [] ∧
      look (step (busyAt .ctrinc .inc)) State.phase = some .wipe) ∧
    (let s := withTurns (busyAt .ctrinc .inc) [.engine]
     s.phase ≠ .idle ∧ s.schedule = .engine :: [] ∧ look (step s) State.phase = some .wipe) := by decide

theorem witness_RoundOrderIsFree : (groupsOf 1).reverse.Perm (groupsOf 1) := List.reverse_perm _

theorem witness_TwentyRoundsPermute : (busyAt .block .round).phase = .round ∧ (busyAt .block .round).rnd = 0 := by decide

/-- CC20's own sub-range, all sixteen bytes, and none at the top. -/
theorem witness_CounterIncrement : 0 + 4 ≤ 16 ∧ 0 + 16 ≤ 16 ∧ 16 + 0 ≤ 16 := by decide

/-- The first and the last byte address of STATUS. -/
theorem witness_StatusWriteOneToClear :
    (let s := withTurns State.reset [.host (.wr 0x04 0x1e)]
     s.schedule = .host (.wr 0x04 0x1e) :: [] ∧ regAt s.platform 0x04 = some .status) ∧
    (let s := withTurns (busyAt .xor .emit) [.host (.wr 0x07 0x1e)]
     s.schedule = .host (.wr 0x07 0x1e) :: [] ∧ regAt s.platform 0x07 = some .status) := by decide

/-- A dropped, an ignored and a taken register; no register is two of the three. -/
theorem witness_DropRule :
    (let s := withTurns (busyAt .xor .emit) [.host (.wr 0x4c 1)]
     s.schedule = .host (.wr 0x4c 1) :: [] ∧ regAt s.platform 0x4c = some (.nc 3) ∧
      (Reg.nc 3).dropped = true ∧ s.phase ≠ .idle) ∧
    (let s := withTurns (busyAt .xor .emit) [.host (.wr 0xbf 1)]
     s.schedule = .host (.wr 0xbf 1) :: [] ∧ regAt s.platform 0xbf = some (.ksw 15) ∧ (Reg.ksw 15).ignored = true) ∧
    (let s := withTurns (busyAt .xor .emit) [.host (.wr 0xc0 1)]
     s.schedule = .host (.wr 0xc0 1) :: [] ∧ regAt s.platform 0xc0 = some .reserved ∧ Reg.reserved.ignored = true) ∧
    (let s := withTurns (busyAt .xor .emit) [.host (.wr 0x08 1)]
     s.schedule = .host (.wr 0x08 1) :: [] ∧ regAt s.platform 0x08 = some .cfg) ∧
    (let s := withTurns (busyAt .xor .emit) [.host (.wr 0x04 1)]
     s.schedule = .host (.wr 0x04 1) :: [] ∧ regAt s.platform 0x04 = some .status) ∧
    Reg.status.dropped = false ∧ Reg.status.ignored = false ∧ Reg.cfg.dropped = false ∧ Reg.cfg.ignored = false ∧
    (Reg.nc 3).ignored = false ∧ (Reg.ksw 15).dropped = false := by decide

/-- The first and the last word of a register file, and a clause of every kind. -/
theorem witness_RegisterWritesTaken :
    (let s := withTurns State.reset [.host (.wr 0x20 1)]
     s.schedule = .host (.wr 0x20 1) :: [] ∧ regAt s.platform 0x20 = some (.key 0) ∧ s.phase = .idle) ∧
    (let s := withTurns State.reset [.host (.wr 0x3f 1)]
     s.schedule = .host (.wr 0x3f 1) :: [] ∧ regAt s.platform 0x3f = some (.key 7) ∧ s.phase = .idle) ∧
    (let s := withTurns State.reset [.host (.wr 0x4c 1)]
     s.schedule = .host (.wr 0x4c 1) :: [] ∧ regAt s.platform 0x4c = some (.nc 3) ∧ s.phase = .idle) ∧
    (let s := withTurns State.reset [.host (.wr 0x0c 1)]
     s.schedule = .host (.wr 0x0c 1) :: [] ∧ regAt s.platform 0x0c = some .src ∧ s.phase = .idle) ∧
    (let s := withTurns State.reset [.host (.wr 0x10 1)]
     s.schedule = .host (.wr 0x10 1) :: [] ∧ regAt s.platform 0x10 = some .dst ∧ s.phase = .idle) ∧
    (let s := withTurns State.reset [.host (.wr 0x14 1)]
     s.schedule = .host (.wr 0x14 1) :: [] ∧ regAt s.platform 0x14 = some .len ∧ s.phase = .idle) ∧
    (let s := withTurns (busyAt .xor .emit) [.host (.wr 0x08 1)]
     s.schedule = .host (.wr 0x08 1) :: [] ∧ regAt s.platform 0x08 = some .cfg) := by decide

theorem witness_RegisterReads :
    (let s := withTurns (busyAt .xor .emit) [.host (.rd 0xbc)]
     s.schedule = .host (.rd 0xbc) :: [] ∧ regAt s.platform 0xbc = some (.ksw 15)) ∧
    (let s := withTurns State.reset [.host (.rd 0x3c)]
     s.schedule = .host (.rd 0x3c) :: [] ∧ regAt s.platform 0x3c = some (.key 7)) ∧
    (let s := withTurns State.reset [.host (.rd 0xff)]
     s.schedule = .host (.rd 0xff) :: [] ∧ regAt s.platform 0xff = some .reserved) := by decide

/-- Where the clauses of the window meet (10_state.md R27). -/
theorem witness_WindowLayout :
    [0x1b, 0x1c, 0x1f, 0x20, 0x3f, 0x40, 0x4f, 0x50, 0x7f, 0x80, 0xbf, 0xc0, 0xff, 0x100].map (regAt .default) =
      [some .bytes, some .reserved, some .reserved, some (.key 0), some (.key 7), some (.nc 0), some (.nc 3),
        some .reserved, some .reserved, some (.ksw 0), some (.ksw 15), some .reserved, some .reserved, none] := by
  decide

/-- An access of 16 bits, and one below and one just above a window whose base is not 0. -/
theorem witness_BadRegisterAccessRefused :
    (let s := withTurns State.reset [.host (.regOther .bits16 0)]; s.schedule = .host (.regOther .bits16 0) :: []) ∧
    (let s := withTurns { State.reset with platform := ⟨32, 0x400⟩ } [.host (.wr 0x3ff 1)]
     0x3ff < s.platform.regBase ∧ s.schedule = .host (.wr 0x3ff 1) :: []) ∧
    (let s := withTurns { State.reset with platform := ⟨32, 0x400⟩ } [.host (.rd 0x500)]
     s.platform.regBase + 256 ≤ 0x500 ∧ s.schedule = .host (.rd 0x500) :: []) := by decide

/-- A busy state that meets the control invariant: CTRINC just accepted. -/
theorem ctrinc_accepted_inv : ControlInv (busyAt .ctrinc .inc) := by
  constructor <;> simp [busyAt, State.reset, isStream, rangeOk, rangeOkCtrinc, Platform.default, Platform.wellFormed,
    Memory.wf, Memory.wfAbove, Memory.within]

/-- A busy state; then an illegal word, a word whose range does not fit, an accepted word, and writes to
STATUS and CFG, at addresses of their own register. -/
theorem witness_IrqRisesWithCompletion :
    (ControlInv (busyAt .ctrinc .inc) ∧ (busyAt .ctrinc .inc).phase ≠ .idle) ∧
    (let s := withTurns State.reset [.host (.wr 0x00 0x12)]
     s.schedule = .host (.wr 0x00 0x12) :: [] ∧ regAt s.platform 0x00 = some .cmd ∧ s.phase = .idle ∧
      ∀ i, decode 0x12 = .command i → rangeOk i s = false) ∧
    (let s := withTurns (idleAt 0 0 0xffffffc1 0) [.host (.wr 0x03 1)]
     s.schedule = .host (.wr 0x03 1) :: [] ∧ regAt s.platform 0x03 = some .cmd ∧ s.phase = .idle ∧
      ∀ i, decode 1 = .command i → rangeOk i s = false) ∧
    (let s := withTurns (idleAt 0 0 0xffffffc0 0) [.host (.wr 0x00 1)]
     s.schedule = .host (.wr 0x00 1) :: [] ∧ regAt s.platform 0x00 = some .cmd ∧ s.phase = .idle ∧
      decode 1 = .command .block ∧ rangeOk .block s = true) ∧
    (let s := withTurns { State.reset with ie := true, err := true } [.host (.wr 0x04 0x1e)]
     s.schedule = .host (.wr 0x04 0x1e) :: [] ∧ regAt s.platform 0x04 = some .status) ∧
    (let s := withTurns { State.reset with done := true } [.host (.wr 0x0b 1)]
     s.schedule = .host (.wr 0x0b 1) :: [] ∧ regAt s.platform 0x0b = some .cfg) := by
  refine ⟨⟨ctrinc_accepted_inv, by decide⟩, ⟨by decide, by decide, by decide, fun i => ?_⟩,
    ⟨by decide, by decide, by decide, fun i => ?_⟩, by decide, by decide, by decide⟩ <;>
  cases i <;> decide

theorem witness_ResetEvent : (withTurns (busyAt .xor .emit) [.reset]).schedule = .reset :: [] := by decide

theorem witness_MemoryIsItsBytes : Memory.wf [(3, 1), (0xffffffff, 0x80)] = true := by decide

/-- The last address of memory, and the first beyond it. -/
theorem witness_HostByteAccess :
    (let s := withTurns State.reset [.host (.mwr 0xffffffff 1)]
     s.schedule = .host (.mwr 0xffffffff 1) :: [] ∧ 0xffffffff < 2 ^ s.platform.addrW) ∧
    (let s := withTurns State.reset [.host (.mrd 0x100000000)]
     s.schedule = .host (.mrd 0x100000000) :: [] ∧ 2 ^ s.platform.addrW ≤ 0x100000000) := by decide

theorem witness_TraceExplainsMemory :
    look (step (withTurns State.reset [.host (.mwr 5 1)])) State.trace = some [.hostMemWrite 5 1] := by decide

theorem witness_StepKeepsControlInv : ControlInv (busyAt .ctrinc .inc) ∧ ∃ t, step (busyAt .ctrinc .inc) = .next t :=
  ⟨ctrinc_accepted_inv, _, rfl⟩

theorem witness_StepKeepsDataInv :
    DataInv (busyAt .block .init) ∧ ∃ t, step (busyAt .block .init) = .next t :=
  ⟨by constructor <;> simp [busyAt], _, rfl⟩

theorem witness_OnlyBadHostAccessStops : ControlInv (busyAt .ctrinc .inc) := ctrinc_accepted_inv

theorem witness_EveryCommandEnds : ControlInv (busyAt .ctrinc .inc) := ctrinc_accepted_inv

/-- A micro-step that writes memory, one that moves the counter, and one that does neither. -/
theorem witness_EngineFrame :
    (look (engineStep { busyAt .xor .emit with wlen := 1 }) State.phase).isSome = true ∧
    (look (engineStep (busyAt .ctrinc .inc)) State.phase).isSome = true ∧
    (look (engineStep (busyAt .block .init)) State.phase).isSome = true := by decide

theorem witness_HostFrame :
    (look (hostStep (.mwr 5 1) (busyAt .block .round)) State.phase).isSome = true ∧
    (look (hostStep (.wr 4 0x1e) (busyAt .block .round)) State.phase).isSome = true := by decide

/-- An EMIT of XOR, and a HOST write beside its two bytes. -/
theorem witness_HostWriteElsewhereCommutes :
    let s := { busyAt .xor .emit with src := 0x100, dst := 0x102, wlen := 6, len := 6 }
    s.mem.wf = true ∧ s.phase = .emit ∧ 0x101 ≠ outputAddr s ∧ 0x101 ≠ inputAddr s ∧ s.op ≠ some .block ∧
    (look (andThen (hostStep (.mwr 0x101 7) s) engineStep) State.phase).isSome = true := by decide

/-- BUSY is cleared by WIPE, by RESET, and set by a CMD write. -/
theorem witness_WhoMovesBusy :
    look (step (busyAt .block .wipe)) State.phase = some .idle ∧
    look (step (withTurns (busyAt .block .round) [.reset])) State.phase = some .idle ∧
    look (step (withTurns State.reset [wrReg .default .cmd 4])) State.phase = some .inc := by decide

theorem witness_KeyPseudoOperationLoadsKey :
    (withTurns State.reset (pseudoKey .default (Vector.replicate 32 7) ++ [.engine])).schedule =
      pseudoKey State.reset.platform (Vector.replicate 32 7) ++ [.engine] ∧ State.reset.phase = .idle :=
  ⟨rfl, rfl⟩

theorem witness_HostCannotReadKey :
    (look (hostStep (.rd 0x20) State.reset) State.trace) = some [.hostRegRead 0x20 0] := by decide

end Sys2Proof.Tests
end

section
/-! PROOFS. Whose turn a step runs, the byte views of KEY and NC, and the pseudo-operation `key`. -/

namespace Sys2Proof.Machine

/-! ### ENGINE's turn -/

/-- Settles O28: the step is the turn that the schedule names, and an idle ENGINE turn keeps the state. -/
theorem idleEngineKeepsState : Obligations.IdleEngineKeepsState := by
  intro s
  have hturn : ∀ rest, s.schedule = .engine :: rest → step s = engineStep { s with schedule := rest } :=
    fun _ hs => step_turn hs
  refine ⟨step_nil, hturn, fun hp => ⟨fun hs => ?_, fun rest hs => ?_⟩⟩
  · rw [step_nil hs, engineStep_idle hp]
  · rw [hturn rest hs]
    exact engineStep_idle hp

/-! ### Packing and unpacking KEY and NC -/

theorem keyOfBytes_get (kb : Vector Byte 32) (i : Nat) (hi : i < 8) :
    (keyOfBytes kb)[i] = le32 kb[4 * i] kb[4 * i + 1] kb[4 * i + 2] kb[4 * i + 3] := by
  simp [keyOfBytes]

/-- The four bytes of word `i`, read at their places in the byte view, make the word again. -/
theorem le32_bytes_of_word {n : Nat} (v : Vector Word n) (i : Nat) (hi : i < n) :
    le32 (byteOf (v[4 * i / 4]'(by omega)) (4 * i % 4))
      (byteOf (v[(4 * i + 1) / 4]'(by omega)) ((4 * i + 1) % 4))
      (byteOf (v[(4 * i + 2) / 4]'(by omega)) ((4 * i + 2) % 4))
      (byteOf (v[(4 * i + 3) / 4]'(by omega)) ((4 * i + 3) % 4)) = v[i] := by
  simp [Nat.mul_add_div, le32_byteOf]

theorem keyOfBytes_keyByte (key : Vector Word 8) : keyOfBytes (Vector.ofFn (keyByte key)) = key := by
  ext i hi : 1
  simp only [keyOfBytes_get _ i hi, Vector.getElem_ofFn, keyByte]
  exact le32_bytes_of_word key i hi

theorem ncOfBytes_ncBytes (nc : Vector Word 4) : ncOfBytes (ncBytes nc) = nc := by
  ext i hi : 1
  simp only [ncOfBytes_get _ i hi, ncBytes_get]
  exact le32_bytes_of_word nc i hi

/-- Settles O34: the loader word by word, and both round trips word by word and byte by byte. -/
theorem loaderReadsBytes : Obligations.LoaderReadsBytes := by
  intro kb nb key nc
  refine ⟨keyByte_keyOfBytes kb, ncBytes_ncOfBytes nb, keyOfBytes_keyByte key, ncOfBytes_ncBytes nc,
    fun i => ?_, fun i => ?_, fun i => ?_⟩
  · exact initState_sigma _ _ i i.isLt
  · rw [initState_key _ _ i i.isLt, keyOfBytes_get]
  · rw [initState_nc _ _ i i.isLt, ncOfBytes_get]

/-! ### Writing KEY word by word -/

/-- Setting the words of `w` at the listed places leaves the other places as they were. -/
theorem foldl_set_get {α : Type} {n : Nat} (w : Vector α n) (is : List (Fin n)) (v : Vector α n) (j : Fin n) :
    (is.foldl (fun u i => u.set i w[i]) v)[j] = if j ∈ is then w[j] else v[j] := by
  induction is generalizing v with
  | nil => simp
  | cons i is ih =>
    rw [List.foldl_cons, ih]
    by_cases hj : j = i
    · subst hj; simp
    · have hset : (v.set i w[i])[j] = v[j] := Vector.getElem_set_ne _ _ fun h => hj (Fin.ext h.symm)
      rw [hset]
      simp [hj]

theorem foldl_set_finRange {α : Type} {n : Nat} (w v : Vector α n) :
    (List.finRange n).foldl (fun u i => u.set i w[i]) v = w := by
  ext j hj : 1
  simpa using foldl_set_get w (List.finRange n) v ⟨j, hj⟩

theorem core_run_succ {s t : State} (h : step s = .next t) (k : Nat) :
    Host.Core.run core (k + 1) s = Host.Core.run core k t := by
  have h' : core.step s = .next t := h
  simp only [Host.Core.run, h']

/-- While idle, a KEYi write that comes next sets the word and takes the turn (10_state.md R32). -/
theorem step_writeKey {s : State} {i : Fin 8} {w : Word} {rest : List Turn} (hp : s.phase = .idle)
    (hs : s.schedule = wrReg s.platform (.key i) w :: rest) :
    step s = .next { s with key := s.key.set i w, schedule := rest } := by
  rw [step_write hs (regAt_addrOf _ _)]
  exact congrArg Host.Outcome.next (unlessBusy_idle hp)

/-- While idle, KEYi writes run one after another. -/
theorem run_writeKeys (w : Vector Word 8) (is : List (Fin 8)) (rest : List Turn) (s : State)
    (hp : s.phase = .idle) (hs : s.schedule = is.map (fun i => wrReg s.platform (.key i) w[i]) ++ rest) :
    Host.Core.run core is.length s =
      .next { s with key := is.foldl (fun u (i : Fin 8) => u.set i w[i]) s.key, schedule := rest } := by
  induction is generalizing s with
  | nil => cases s; simp_all [Host.Core.run]
  | cons i is ih => exact (core_run_succ (step_writeKey hp hs) is.length).trans (ih _ hp rfl)

/-- Settles O59: the eight KEYi writes run one after another, and together they set every word. -/
theorem keyPseudoOperationLoadsKey : Obligations.KeyPseudoOperationLoadsKey := by
  intro s kb rest hp hs
  have hrun := run_writeKeys (keyOfBytes kb) (List.finRange 8) rest s hp hs
  rwa [foldl_set_finRange, List.length_finRange] at hrun

end Sys2Proof.Machine
end

section
/-! PROOFS. ENGINE keeps the control invariant, and never stops in a state that meets it. -/

namespace Sys2Proof.Machine

/-! ### What the control invariant says of OP, the window and the addresses -/

/-- The phases that compute or emit a block run for BLOCK, XOR and KSTREAM alone. -/
theorem ControlInv.block_or_stream {s : State} (hs : ControlInv s)
    (hp : s.phase = .init ∨ s.phase = .round ∨ s.phase = .feed ∨ s.phase = .emit) :
    s.op = some .block ∨ isStream s.op = true := by
  rcases hop : s.op with _ | i
  · have := hs.idleOp.2 hop
    simp [this] at hp
  · cases i with
    | block => exact .inl rfl
    | xor => exact .inr rfl
    | kstream => exact .inr rfl
    | ctrinc => rcases hs.ctrincPhase hop with h | h <;> simp [h] at hp

/-- INC runs for CTRINC, XOR and KSTREAM alone. -/
theorem ControlInv.ctrinc_or_stream {s : State} (hs : ControlInv s) (hp : s.phase = .inc) :
    s.op = some .ctrinc ∨ isStream s.op = true := by
  rcases hop : s.op with _ | i
  · have := hs.idleOp.2 hop
    simp [this] at hp
  · cases i with
    | block => exact absurd hp (hs.blockPhase hop)
    | xor => exact .inr rfl
    | kstream => exact .inr rfl
    | ctrinc => exact .inl rfl

/-- The bytes of a window end at LEN or before. -/
theorem off_add_windowLength_le {s : State} (h : s.off.toNat ≤ s.len.toNat) :
    s.off.toNat + windowLength s ≤ s.len.toNat := by
  unfold windowLength; omega

/-- OFF moves past a stream's window without wrapping, to LEN at most (42_counter.md R143). -/
theorem ControlInv.off_add_wlen {s : State} (hs : ControlInv s) (hp : s.phase = .inc)
    (hst : isStream s.op = true) :
    (s.off + BitVec.ofNat 32 s.wlen).toNat = s.off.toNat + s.wlen ∧ s.off.toNat + s.wlen ≤ s.len.toNat := by
  obtain ⟨-, -, hw, -⟩ := hs.window (.inr ⟨hp, hst⟩)
  have hle := off_add_windowLength_le (hs.offBound hst)
  rw [← hw hst] at hle
  have := s.len.isLt
  exact ⟨by rw [BitVec.toNat_add, BitVec.toNat_ofNat]; omega, hle⟩

theorem ControlInv.blockAddr_lt {s : State} (hs : ControlInv s) (hp : s.phase = .emit)
    (hop : s.op = some .block) : blockAddr s < 2 ^ s.platform.addrW := by
  have hr := hs.range _ hop
  simp only [rangeOk, rangeOkBlock, rangeFits, Config.blockBytes, decide_eq_true_eq] at hr
  obtain ⟨-, hw, -⟩ := hs.window (.inl hp)
  have hj := hs.emitJ hp
  unfold blockAddr; omega

/-- A stream's position in its operands, `OFF + J`, is below LEN. -/
theorem ControlInv.position_lt {s : State} (hs : ControlInv s) (hp : s.phase = .emit)
    (hst : isStream s.op = true) : s.off.toNat + s.j < s.len.toNat := by
  obtain ⟨-, -, hw, -⟩ := hs.window (.inl hp)
  have hle := off_add_windowLength_le (hs.offBound hst)
  rw [← hw hst] at hle
  have hj := hs.emitJ hp
  omega

theorem ControlInv.outputAddr_lt {s : State} (hs : ControlInv s) (hp : s.phase = .emit)
    (hst : isStream s.op = true) : outputAddr s < 2 ^ s.platform.addrW := by
  have hpos := hs.position_lt hp hst
  have hd : s.dst.toNat + s.len.toNat ≤ 2 ^ s.platform.addrW := by
    rcases hop : s.op with _ | i
    · simp [hop, isStream] at hst
    · have hr := hs.range i hop
      cases i <;> simp_all [isStream, rangeOk, rangeOkXor, rangeOkKstream, rangeFits]
  unfold outputAddr; omega

theorem ControlInv.inputAddr_lt {s : State} (hs : ControlInv s) (hp : s.phase = .emit)
    (hop : s.op = some .xor) : inputAddr s < 2 ^ s.platform.addrW := by
  have hpos := hs.position_lt hp (by simp [hop, isStream])
  have hr := hs.range _ hop
  simp only [rangeOk, rangeOkXor, rangeFits, Bool.and_eq_true, decide_eq_true_eq] at hr
  unfold inputAddr; omega

/-! ### ENGINE never stops -/

/-- In EMIT, the micro-step of each command finds its bytes in memory. -/
theorem ControlInv.engineStep_emit_next {s : State} (hs : ControlInv s) (hp : s.phase = .emit) :
    ∃ t, engineStep s = .next t := by
  obtain ⟨-, hw, -⟩ := hs.window (.inl hp)
  rw [engineStep_emit hp (hs.emitJ hp) hw]
  rcases hop : s.op with _ | i
  · have := hs.idleOp.2 hop
    simp [this] at hp
  · cases i with
    | block => exact ⟨_, emitBlock_in (hs.blockAddr_lt hp hop)⟩
    | xor => exact ⟨_, emitXor_in (hs.inputAddr_lt hp hop) (hs.outputAddr_lt hp (by simp [hop, isStream]))⟩
    | kstream => exact ⟨_, emitKstream_in (hs.outputAddr_lt hp (by simp [hop, isStream]))⟩
    | ctrinc => rcases hs.ctrincPhase hop with h | h <;> simp [h] at hp

theorem ControlInv.engineStep_next {s : State} (hs : ControlInv s) : ∃ t, engineStep s = .next t := by
  rcases hp : s.phase
  case idle => exact ⟨_, engineStep_idle hp⟩
  case init => exact ⟨_, engineStep_init hp⟩
  case round => exact ⟨_, engineStep_round hp (hs.rndRound hp)⟩
  case feed => exact ⟨_, engineStep_feed hp (hs.block_or_stream (by simp [hp]))⟩
  case emit => exact hs.engineStep_emit_next hp
  case inc => exact ⟨_, engineStep_inc hp (hs.ctrinc_or_stream hp)⟩
  case wipe => exact ⟨_, engineStep_wipe hp⟩

/-! ### ENGINE keeps the control invariant

One lemma per phase; each names the fields of the invariant that the micro-step touches. -/

/-- The range check made at accept still holds: its registers are the same (60_exceptions.md R200). -/
theorem ControlInv.range_congr {s t : State} (hs : ControlInv s) (ho : t.op = s.op) (hsrc : t.src = s.src)
    (hd : t.dst = s.dst) (hl : t.len = s.len) (hp : t.platform = s.platform) :
    ∀ i, t.op = some i → rangeOk i t = true :=
  fun i hi => (rangeOk_congr i hsrc hd hl hp).trans (hs.range i (ho ▸ hi))

theorem ControlInv.after_init {s : State} (hs : ControlInv s) (hp : s.phase = .init) : ControlInv { s with
    sfile := initState s.key s.nc, xfile := initState s.key s.nc, rnd := 0, phase := .round } :=
  { hs with
    idleOp := by simpa [hp] using hs.idleOp
    idleScratch := by simp
    blockPhase := by simp
    ctrincPhase := by simpa [hp] using hs.ctrincPhase
    rndRound := by simp
    rndBound := by simp
    ecWipe := by simpa [hp] using hs.ecWipe
    range := hs.range_congr rfl rfl rfl rfl rfl
    offBefore := by simpa [hp] using hs.offBefore
    window := by simp
    emitJ := by simp
    incJ := by simp
    bytesBefore := by simpa [hp] using hs.bytesBefore
    bytesAfter := by simp
    busyReport := by simpa [hp] using hs.busyReport }

/-- ROUND goes on to `p`, which is ROUND again or FEED. -/
theorem ControlInv.after_round {s : State} (hs : ControlInv s) (hp : s.phase = .round) {x : Vector Word 16}
    {p : Phase} (hr : s.rnd < 20) (hn : p = .round ∧ s.rnd + 1 < 20 ∨ p = .feed) :
    ControlInv { s with xfile := x, rnd := s.rnd + 1, phase := p } := by
  have hp' : p = .round ∨ p = .feed := hn.imp_left And.left
  have hne : p ≠ .idle ∧ p ≠ .inc ∧ p ≠ .wipe ∧ p ≠ .emit := by rcases hp' with rfl | rfl <;> decide
  obtain ⟨hidle, hinc, hwipe, hemit⟩ := hne
  exact { hs with
    idleOp := by simpa [hp, hidle] using hs.idleOp
    idleScratch := by simp [hidle]
    blockPhase := by simp [hinc]
    ctrincPhase := by simpa [hp, hinc, hwipe] using hs.ctrincPhase
    rndRound := by rcases hn with ⟨rfl, h⟩ | rfl <;> simp_all
    rndBound := hr
    ecWipe := by simpa [hp, hwipe] using hs.ecWipe
    range := hs.range_congr rfl rfl rfl rfl rfl
    offBefore := by simpa [hp, hp'] using hs.offBefore
    window := by simp [hemit, hinc]
    emitJ := by simp [hemit]
    incJ := by simp [hinc]
    bytesBefore := by simpa [hp, hp'] using hs.bytesBefore
    bytesAfter := by simp [hemit, hinc]
    busyReport := by simpa [hp, hidle] using hs.busyReport }

/-- FEED sets a window of 1 to 64 bytes (41_block_function.md R124). -/
theorem ControlInv.feedLength_bounds {s : State} (hs : ControlInv s) (hp : s.phase = .feed) :
    1 ≤ feedLength s ∧ feedLength s ≤ 64 := by
  unfold feedLength
  split
  · decide
  · next hb =>
    have hst := (hs.block_or_stream (by simp [hp])).resolve_left hb
    have := hs.offBefore hst (by simp [hp])
    simp only [windowLength, Config.blockBytes]; omega

theorem feedLength_stream {s : State} (hst : isStream s.op = true) : feedLength s = windowLength s :=
  if_neg fun hb => by simp [hb, isStream] at hst

theorem ControlInv.after_feed {s : State} (hs : ControlInv s) (hp : s.phase = .feed) {k : Vector Word 16} :
    ControlInv { s with ks := k, wlen := feedLength s, j := 0, phase := .emit } := by
  obtain ⟨hw1, hw64⟩ := hs.feedLength_bounds hp
  exact { hs with
    idleOp := by simpa [hp] using hs.idleOp
    idleScratch := by simp
    blockPhase := by simp
    ctrincPhase := by simpa [hp] using hs.ctrincPhase
    rndRound := by simp
    ecWipe := by simpa [hp] using hs.ecWipe
    range := hs.range_congr rfl rfl rfl rfl rfl
    offBefore := by simp
    window := fun _ => ⟨hw1, hw64, feedLength_stream, fun hb => if_pos hb⟩
    emitJ := fun _ => hw1
    incJ := by simp
    ctrincZero := fun hc => by have := hs.ctrincPhase hc; simp [hp] at this
    bytesBefore := by simp
    bytesAfter := fun _ => by simpa [hp] using hs.bytesBefore
    bounds := ⟨by simp, hw64⟩
    busyReport := by simpa [hp] using hs.busyReport }

/-- EMIT of any command: memory `m` after its byte write, and the next phase, EMIT again or after the
window's last byte `last`. -/
theorem ControlInv.after_emit {s : State} (hs : ControlInv s) (hp : s.phase = .emit) {m : Memory}
    {tr : List Event} {last : Phase} (hm : m.wf = true) (hin : Memory.within s.platform.addrW m = true)
    (hl : s.op = some .block ∧ last = .wipe ∨ isStream s.op = true ∧ last = .inc) : ControlInv { s with
      mem := m, trace := tr, bytes := s.bytes + 1, j := s.j + 1
      phase := if s.j + 1 = s.wlen then last else .emit } := by
  have hw := hs.window (.inl hp)
  have hj := hs.emitJ hp
  have hbytes : s.bytes + 1 = s.off + BitVec.ofNat 32 (s.j + 1) := by
    rw [hs.bytesAfter (.inl hp), BitVec.add_assoc, BitVec.ofNat_add]; rfl
  generalize hq : (if s.j + 1 = s.wlen then last else Phase.emit) = q
  have hq' : q = .emit ∧ s.j + 1 < s.wlen ∨ q = .wipe ∧ s.op = some .block ∨
      q = .inc ∧ isStream s.op = true ∧ s.j + 1 = s.wlen := by
    split at hq
    · next he => rcases hl with ⟨hop, rfl⟩ | ⟨hst, rfl⟩ <;> simp_all
    · next he => exact .inl ⟨hq.symm, by omega⟩
  have hop := hs.block_or_stream (by simp [hp])
  have hne : q ≠ .idle ∧ q ≠ .init ∧ q ≠ .round ∧ q ≠ .feed := by
    rcases hq' with ⟨rfl, -⟩ | ⟨rfl, -⟩ | ⟨rfl, -⟩ <;> decide
  obtain ⟨hidle, hinit, hround, hfeed⟩ := hne
  have hctr : s.op ≠ some .ctrinc := fun hc => by simp [hc, isStream] at hop
  have hec : s.ec = .none := by simpa [hp] using hs.ecWipe
  exact { hs with
    memWf := hm
    memWithin := hin
    idleOp := by simpa [hp, hidle] using hs.idleOp
    idleScratch := by simp [hidle]
    blockPhase := fun hb => by rcases hq' with ⟨rfl, -⟩ | ⟨rfl, -⟩ | ⟨rfl, hst, -⟩ <;> simp_all [isStream]
    ctrincPhase := fun hc => absurd hc hctr
    rndRound := by simp [hround]
    ecWipe := .inl hec
    range := hs.range_congr rfl rfl rfl rfl rfl
    offBefore := by simp [hinit, hround, hfeed]
    window := fun _ => hw
    emitJ := by rcases hq' with ⟨rfl, h⟩ | ⟨rfl, -⟩ | ⟨rfl, -⟩ <;> simp_all
    incJ := by rcases hq' with ⟨rfl, -⟩ | ⟨rfl, -⟩ | ⟨rfl, -, h⟩ <;> simp_all
    ctrincZero := fun hc => absurd hc hctr
    bytesBefore := by simp [hinit, hround, hfeed]
    bytesAfter := fun _ => hbytes
    bounds := ⟨by show s.j + 1 ≤ 64; omega, hs.bounds.2⟩
    busyReport := by simpa [hp, hidle] using hs.busyReport }

/-- INC goes on to WIPE, or without an overflow to the INIT of the next window. -/
theorem ControlInv.after_inc {s : State} (hs : ControlInv s) (hp : s.phase = .inc) {n : Vector Word 4}
    {e : ErrorCode} {p : Phase} (hn : p = .wipe ∧ (e = .none ∨ e = .ctrOverflow) ∨ p = incAfter s ∧ e = .none) :
    ControlInv { s with nc := n, off := s.off + BitVec.ofNat 32 s.wlen, ec := e, phase := p } := by
  have hblock : s.op ≠ some .block := fun hb => hs.blockPhase hb hp
  have hstream : s.op ≠ some .ctrinc → isStream s.op = true := (hs.ctrinc_or_stream hp).resolve_left
  have hp' : p = .wipe ∨ p = .init ∧ e = .none ∧ isStream s.op = true ∧
      (s.off + BitVec.ofNat 32 s.wlen).toNat < s.len.toNat := by
    rcases hn with ⟨rfl, -⟩ | ⟨rfl, rfl⟩
    · exact .inl rfl
    · unfold incAfter; split <;> simp_all
  have hne : p ≠ .idle ∧ p ≠ .round ∧ p ≠ .feed ∧ p ≠ .emit ∧ p ≠ .inc := by
    rcases hp' with rfl | ⟨rfl, -⟩ <;> decide
  obtain ⟨hidle, hround, hfeed, hemit, hinc⟩ := hne
  exact { hs with
    idleOp := by simpa [hp, hidle] using hs.idleOp
    idleScratch := by simp [hidle]
    blockPhase := fun hb => absurd hb hblock
    ctrincPhase := fun hc => by rcases hp' with rfl | ⟨-, -, hst, -⟩ <;> simp_all [isStream]
    rndRound := by simp [hround]
    ecWipe := by rcases hn with ⟨rfl, rfl | rfl⟩ | ⟨-, rfl⟩ <;> simp [hblock]
    range := hs.range_congr rfl rfl rfl rfl rfl
    offZero := fun hst => by
      have hctr : s.op = some .ctrinc := by by_contra h; simp [hstream h] at hst
      simp [hs.offZero hst, (hs.ctrincZero hctr).2.1]
    offBound := fun hst => by
      obtain ⟨hoff, hle⟩ := hs.off_add_wlen hp hst
      exact hoff.trans_le hle
    offBefore := fun _ h => by rcases hp' with rfl | ⟨-, -, -, hlt⟩ <;> simp_all
    window := by simp [hemit, hinc]
    emitJ := by simp [hemit]
    incJ := by simp [hinc]
    bytesBefore := fun h => by
      rcases hp' with rfl | ⟨-, -, hst, -⟩
      · simp at h
      · exact (hs.bytesAfter (.inr hp)).trans (by rw [hs.incJ hp hst])
    bytesAfter := by simp [hemit, hinc]
    busyReport := by simpa [hp, hidle] using hs.busyReport }

theorem ControlInv.after_wipe {s : State} (hs : ControlInv s) (hp : s.phase = .wipe) : ControlInv (wiped s) := by
  obtain ⟨hd, he, ho⟩ := hs.busyReport (by simp [hp])
  have hec : s.ecode = .none := by simpa [he] using hs.ecodeErr
  exact { hs with
    idleOp := by simp [wiped]
    idleScratch := by simp [wiped]
    blockPhase := by simp [wiped]
    ctrincPhase := by simp [wiped]
    rndRound := by simp [wiped]
    rndBound := by simp [wiped]
    ecWipe := .inl rfl
    range := by simp [wiped]
    offZero := fun _ => rfl
    offBound := by simp [wiped, isStream]
    offBefore := by simp [wiped]
    window := by simp [wiped]
    emitJ := by simp [wiped]
    incJ := by simp [wiped]
    ctrincZero := by simp [wiped]
    bytesBefore := by simp [wiped]
    bytesAfter := by simp [wiped]
    bounds := by simp [wiped]
    busyReport := by simp [wiped]
    oneReport := by by_cases h : s.ec = .none <;> simp [wiped, h, hd, he]
    ecodeErr := by by_cases h : s.ec = .none <;> simp [wiped, h, he, hec] }

/-- ENGINE's part of the control invariant. -/
theorem microStep_keeps_controlInv {s t : State} (hs : ControlInv s) (h : MicroStep s t) : ControlInv t := by
  have hmem (a : Nat) (v : Byte) := memWrite_wf s.mem a v hs.memWf
  have hin {a : Nat} {v : Byte} (ha : a < 2 ^ s.platform.addrW) := memWrite_within _ _ _ v ha hs.memWithin
  cases h with
  | idle hp => exact hs
  | init hp => exact hs.after_init hp
  | round hp hr =>
    refine hs.after_round hp hr ?_
    split
    · exact .inr rfl
    · exact .inl ⟨rfl, by omega⟩
  | feed hp hop => exact hs.after_feed hp
  | emitBlock hp hj hw hop ho => exact hs.after_emit hp (hmem _ _) (hin ho) (.inl ⟨hop, rfl⟩)
  | emitXor hp hj hw hop hi ho => exact hs.after_emit hp (hmem _ _) (hin ho) (.inr ⟨by simp [hop, isStream], rfl⟩)
  | emitKstream hp hj hw hop ho => exact hs.after_emit hp (hmem _ _) (hin ho) (.inr ⟨by simp [hop, isStream], rfl⟩)
  | incOverflow hp hop hc => exact hs.after_inc hp (.inl ⟨rfl, .inr rfl⟩)
  | inc hp hop hc => exact hs.after_inc hp (.inr ⟨rfl, by simpa [hp] using hs.ecWipe⟩)
  | wipe hp => exact hs.after_wipe hp

theorem engineStep_keeps_controlInv {s t : State} (hs : ControlInv s) (h : engineStep s = .next t) :
    ControlInv t :=
  microStep_keeps_controlInv hs (engineStep_cases h)

end Sys2Proof.Machine
end

section
/-! PROOFS. ENGINE alone ends every command: a count of micro-steps that each micro-step lowers. -/

namespace Sys2Proof.Machine

/-- The micro-steps that a stream with `m` bytes left takes from INIT to IDLE: 22 and one INC for each
window, one for each byte, and WIPE (70_reset_and_hazards.md R243). -/
def streamSteps (m : Nat) : Nat := 23 * windows m + m + 1

/-- The micro-steps from INIT to IDLE. BLOCK has one window of 64 bytes and no INC. -/
def stepsFromInit (s : State) : Nat := if isStream s.op then streamSteps (s.len.toNat - s.off.toNat) else 87

/-- The micro-steps from INC to IDLE. -/
def stepsFromInc (s : State) : Nat :=
  if isStream s.op then streamSteps (s.len.toNat - (s.off.toNat + s.wlen)) + 1 else 2

/-- The micro-steps from the end of a window to IDLE. -/
def stepsAfterEmit (s : State) : Nat := if isStream s.op then stepsFromInc s else 1

/-- The most micro-steps that ENGINE still takes before PHASE is IDLE. -/
def stepsLeft (s : State) : Nat :=
  match s.phase with
  | .idle => 0
  | .init => stepsFromInit s
  | .round => stepsFromInit s - (s.rnd + 1)
  | .feed => stepsFromInit s - 21
  | .emit => s.wlen - s.j + stepsAfterEmit s
  | .inc => stepsFromInc s
  | .wipe => 1

theorem stepsLeft_init {s : State} (hp : s.phase = .init) : stepsLeft s = stepsFromInit s := by
  simp only [stepsLeft, hp]

theorem stepsLeft_round {s : State} (hp : s.phase = .round) : stepsLeft s = stepsFromInit s - (s.rnd + 1) := by
  simp only [stepsLeft, hp]

theorem stepsLeft_feed {s : State} (hp : s.phase = .feed) : stepsLeft s = stepsFromInit s - 21 := by
  simp only [stepsLeft, hp]

theorem stepsLeft_emit {s : State} (hp : s.phase = .emit) :
    stepsLeft s = s.wlen - s.j + stepsAfterEmit s := by
  simp only [stepsLeft, hp]

theorem stepsLeft_inc {s : State} (hp : s.phase = .inc) : stepsLeft s = stepsFromInc s := by
  simp only [stepsLeft, hp]

theorem stepsLeft_wipe {s : State} (hp : s.phase = .wipe) : stepsLeft s = 1 := by
  simp only [stepsLeft, hp]

theorem streamSteps_mono {m n : Nat} (h : m ≤ n) : streamSteps m ≤ streamSteps n := by
  unfold streamSteps windows; omega

/-- A window takes its 22 micro-steps, its bytes and its INC off the count. -/
theorem streamSteps_window {m : Nat} (h : 0 < m) :
    streamSteps m = 23 + min 64 m + streamSteps (m - min 64 m) := by
  unfold streamSteps windows; omega

theorem stepsFromInc_pos (s : State) : 1 < stepsFromInc s := by
  unfold stepsFromInc streamSteps
  split <;> omega

/-- From INIT: the 22 micro-steps of the block, the bytes of the window, and what comes after it. -/
theorem stepsFromInit_window {s : State} (hop : s.op = some .block ∨ isStream s.op = true)
    (hlt : isStream s.op = true → s.off.toNat < s.len.toNat) (hw : s.wlen = feedLength s) :
    stepsFromInit s = 22 + s.wlen + stepsAfterEmit s := by
  rcases hop with hop | hst
  · simp [stepsFromInit, stepsAfterEmit, hw, feedLength, hop, isStream]
  · have hlt := hlt hst
    rw [feedLength_stream hst, windowLength, Config.blockBytes] at hw
    simp only [stepsFromInit, stepsAfterEmit, stepsFromInc, hst, if_true, hw, ← Nat.sub_sub]
    rw [streamSteps_window (by omega)]
    omega

/-- The window that FEED is to set, before it is set. -/
theorem ControlInv.stepsFromInit_before {s : State} (hs : ControlInv s)
    (hp : s.phase = .init ∨ s.phase = .round ∨ s.phase = .feed) :
    stepsFromInit s = 22 + feedLength s + stepsAfterEmit { s with wlen := feedLength s } :=
  stepsFromInit_window (s := { s with wlen := feedLength s }) (hs.block_or_stream (by tauto))
    (fun hst => hs.offBefore hst hp) rfl

/-- The window that FEED set. -/
theorem ControlInv.stepsFromInit_inside {s : State} (hs : ControlInv s)
    (hp : s.phase = .emit ∨ (s.phase = .inc ∧ isStream s.op = true)) :
    stepsFromInit s = 22 + s.wlen + stepsAfterEmit s := by
  obtain ⟨hw1, -, hstream, hblock⟩ := hs.window hp
  have hop : s.op = some .block ∨ isStream s.op = true :=
    hp.elim (fun h => hs.block_or_stream (by simp [h])) fun h => .inr h.2
  refine stepsFromInit_window hop (fun hst => ?_) ?_
  · have := hstream hst
    unfold windowLength at this
    omega
  · rcases hop with hb | hst
    · rw [hblock hb, feedLength, if_pos hb]
    · rw [hstream hst, feedLength_stream hst]

/-- The whole of a command's count is within the bound of 70_reset_and_hazards.md R243. -/
theorem stepsFromInit_le (s : State) : stepsFromInit s ≤ max 87 (streamSteps s.len.toNat) := by
  unfold stepsFromInit
  split
  · exact (streamSteps_mono (Nat.sub_le _ _)).trans (Nat.le_max_right _ _)
  · exact Nat.le_max_left _ _

theorem ControlInv.stepsLeft_le {s : State} (hs : ControlInv s) :
    stepsLeft s ≤ max 87 (streamSteps s.len.toNat) := by
  have hinit := stepsFromInit_le s
  rcases hp : s.phase
  case idle => simp [stepsLeft, hp]
  case init => rwa [stepsLeft_init hp]
  case round => rw [stepsLeft_round hp]; omega
  case feed => rw [stepsLeft_feed hp]; omega
  case emit =>
    have := hs.stepsFromInit_inside (.inl hp)
    rw [stepsLeft_emit hp]; omega
  case inc =>
    rw [stepsLeft_inc hp]
    by_cases hst : isStream s.op = true
    · have := hs.stepsFromInit_inside (.inr ⟨hp, hst⟩)
      simp only [stepsAfterEmit, hst, if_true] at this
      omega
    · simp [stepsFromInc, hst]
  case wipe => rw [stepsLeft_wipe hp]; omega

/-! ### Every micro-step lowers the count -/

/-- EMIT of any command, whatever it does to memory. -/
theorem stepsLeft_after_emit {s : State} (hp : s.phase = .emit) (hj : s.j < s.wlen) {m : Memory}
    {tr : List Event} {last : Phase}
    (hl : s.op = some .block ∧ last = .wipe ∨ isStream s.op = true ∧ last = .inc) :
    stepsLeft { s with
      mem := m, trace := tr, bytes := s.bytes + 1, j := s.j + 1
      phase := if s.j + 1 = s.wlen then last else .emit } < stepsLeft s := by
  rw [stepsLeft_emit hp]
  by_cases he : s.j + 1 = s.wlen
  · rcases hl with ⟨hop, rfl⟩ | ⟨hst, rfl⟩
    · simp [stepsLeft, stepsAfterEmit, he, hop, isStream, hj]
    · simp only [stepsLeft, stepsAfterEmit, he, hst, if_true]
      exact Nat.lt_add_of_pos_left (by omega)
  · simp only [stepsLeft, if_neg he]
    exact Nat.add_lt_add_right (by omega) _

theorem ControlInv.stepsLeft_after_inc {s : State} (hs : ControlInv s) (hp : s.phase = .inc)
    {n : Vector Word 4} :
    stepsLeft { s with
      nc := n, off := s.off + BitVec.ofNat 32 s.wlen, phase := incAfter s } < stepsFromInc s := by
  unfold incAfter
  split
  · next hmore =>
    obtain ⟨hoff, -⟩ := hs.off_add_wlen hp hmore.1
    simp [stepsLeft, stepsFromInit, stepsFromInc, hmore.1, hoff]
  · exact stepsFromInc_pos s

theorem ControlInv.stepsLeft_lt {s t : State} (hs : ControlInv s) (h : MicroStep s t) (hb : s.phase ≠ .idle) :
    stepsLeft t < stepsLeft s := by
  cases h with
  | idle hp => exact absurd hp hb
  | init hp =>
    have := hs.stepsFromInit_before (.inl hp)
    rw [stepsLeft_init hp]
    show stepsFromInit s - (0 + 1) < _
    omega
  | round hp hr =>
    have := hs.stepsFromInit_before (.inr (.inl hp))
    rw [stepsLeft_round hp]
    split
    · show stepsFromInit s - 21 < _
      omega
    · show stepsFromInit s - (s.rnd + 1 + 1) < _
      omega
  | feed hp hop =>
    have := hs.stepsFromInit_before (.inr (.inr hp))
    rw [stepsLeft_feed hp]
    show feedLength s - 0 + stepsAfterEmit { s with wlen := feedLength s } < _
    omega
  | emitBlock hp hj hw hop ho => exact stepsLeft_after_emit hp hj (.inl ⟨hop, rfl⟩)
  | emitXor hp hj hw hop hi ho => exact stepsLeft_after_emit hp hj (.inr ⟨by simp [hop, isStream], rfl⟩)
  | emitKstream hp hj hw hop ho => exact stepsLeft_after_emit hp hj (.inr ⟨by simp [hop, isStream], rfl⟩)
  | incOverflow hp hop hc => rw [stepsLeft_inc hp]; exact stepsFromInc_pos s
  | inc hp hop hc => exact (hs.stepsLeft_after_inc hp).trans_eq (stepsLeft_inc hp).symm
  | wipe hp => rw [stepsLeft_wipe hp]; exact Nat.zero_lt_one

/-! ### The end of every command -/

/-- ENGINE reaches IDLE within any bound on the micro-steps left. -/
theorem ControlInv.engineRun_idle_within (n : Nat) {s : State} (hs : ControlInv s) (hn : stepsLeft s ≤ n) :
    ∃ k u, k ≤ n ∧ engineRun k s = .next u ∧ u.phase = .idle := by
  induction n generalizing s with
  | zero =>
    refine ⟨0, s, Nat.le_refl 0, rfl, ?_⟩
    by_contra hb
    obtain ⟨t, ht⟩ := hs.engineStep_next
    have := hs.stepsLeft_lt (engineStep_cases ht) hb
    omega
  | succ n ih =>
    by_cases hp : s.phase = .idle
    · exact ⟨0, s, Nat.zero_le _, rfl, hp⟩
    · obtain ⟨t, ht⟩ := hs.engineStep_next
      have hlt := hs.stepsLeft_lt (engineStep_cases ht) hp
      obtain ⟨k, u, hk, hrun, hu⟩ := ih (engineStep_keeps_controlInv hs ht) (by omega)
      exact ⟨k + 1, u, by omega, (engineRun_succ ht k).trans hrun, hu⟩

/-- Settles O54: the count of micro-steps left is within the bound, and each micro-step lowers it. -/
theorem everyCommandEnds : Obligations.EveryCommandEnds := by
  intro s hs
  exact hs.engineRun_idle_within _ hs.stepsLeft_le

end Sys2Proof.Machine
end

section
/-! PROOFS. Every agent keeps the control invariant, which holds at reset. -/

namespace Sys2Proof.Machine

/-! ### RESET -/

theorem controlInv_reset : ControlInv State.reset := by
  constructor <;> simp [State.reset, isStream, Platform.default, Platform.wellFormed, Memory.wf, Memory.wfAbove,
    Memory.within]

/-- Settles O50: every clause is about a busy state, or compares reset values. -/
theorem invariantsHoldAtReset : Obligations.InvariantsHoldAtReset :=
  ⟨controlInv_reset, by constructor <;> simp [State.reset]⟩

/-- RESET keeps MEM and the platform, and everything else is as at reset (70_reset_and_hazards.md R230). -/
theorem ControlInv.after_reset {s : State} (hs : ControlInv s) : ControlInv (resetDevice s) :=
  { controlInv_reset with
    platform := hs.platform
    memWf := hs.memWf
    memWithin := hs.memWithin
    range := fun _ hi => nomatch hi }

/-! ### HOST

One lemma for each kind of change that a HOST action makes. -/

/-- The invariant reads neither KEY, NC, IGN, CFG, the coming turns nor the trace. -/
theorem ControlInv.unread {s : State} (hs : ControlInv s) {key : Vector Word 8} {nc : Vector Word 4}
    {ign ie : Bool} {ts : List Turn} {tr : List Event} : ControlInv { s with
      key := key, nc := nc, ign := ign, ie := ie, schedule := ts, trace := tr } :=
  { hs with range := hs.range_congr rfl rfl rfl rfl rfl }

/-- While idle no command depends on SRC, DST and LEN. -/
theorem ControlInv.operands {s : State} (hs : ControlInv s) (hp : s.phase = .idle) {a b c : Word} :
    ControlInv { s with src := a, dst := b, len := c } := by
  have hop : s.op = none := hs.idleOp.1 hp
  exact { hs with
    range := by simp [hop]
    offBound := by simp [hop, isStream]
    offBefore := by simp [hop, isStream]
    window := by simp [hp] }

/-- A HOST byte write below 2^P_ADDR_W. -/
theorem ControlInv.after_memWrite {s : State} (hs : ControlInv s) {a : Nat} {v : Byte}
    (ha : a < 2 ^ s.platform.addrW) : ControlInv { s with mem := memWrite s.mem a v } :=
  { hs with
    memWf := memWrite_wf _ _ _ hs.memWf
    memWithin := memWrite_within _ _ _ _ ha hs.memWithin
    range := hs.range_congr rfl rfl rfl rfl rfl }

/-- A write-one-to-clear only clears, and ECODE goes with ERR (10_state.md R29). -/
theorem ControlInv.after_writeStatus {s : State} (hs : ControlInv s) (w : Word) :
    ControlInv (writeStatus w s) :=
  { hs with
    range := hs.range_congr rfl rfl rfl rfl rfl
    busyReport := fun hb => by
      obtain ⟨hd, he, ho⟩ := hs.busyReport hb
      simp [hd, he, ho]
    oneReport := fun h => hs.oneReport (h.imp Bool.and_elim_left Bool.and_elim_left)
    ecodeErr := by cases h : w.getLsbD 2 <;> simp [h, hs.ecodeErr, and_comm] }

/-- A rejected CMD write leaves an error report in an idle state (60_exceptions.md R201). -/
theorem ControlInv.after_reject {s : State} (hs : ControlInv s) (hp : s.phase = .idle) {c : ErrorCode}
    (hc : c ≠ .none) : ControlInv { s with
      done := false, err := true, ovf := false, ign := false, ecode := c, bytes := 0 } :=
  { hs with
    range := hs.range_congr rfl rfl rfl rfl rfl
    ctrincZero := by simp [hs.idleOp.1 hp]
    bytesBefore := by simp [hp]
    bytesAfter := by simp [hp]
    busyReport := by simp [hp]
    oneReport := by simp
    ecodeErr := by simp [hc] }

/-- Where accept sends each command (30_encoding.md R84). -/
theorem firstPhase_cases (i : Instr) (s : State) :
    i = .ctrinc ∧ firstPhase i s = .inc ∨ isStream (some i) = true ∧ firstPhase i s = .wipe ∨
      i ≠ .ctrinc ∧ firstPhase i s = .init ∧ (isStream (some i) = true → 0 < s.len.toNat) := by
  have hstream : streamFirst s = .wipe ∨ streamFirst s = .init ∧ 0 < s.len.toNat := by
    unfold streamFirst
    split
    · exact .inl rfl
    · next hl => exact .inr ⟨rfl, Nat.pos_of_ne_zero fun h => hl (BitVec.eq_of_toNat_eq h)⟩
  cases i <;> simp [firstPhase, isStream]
  all_goals simpa using hstream

/-- Accept starts a command whose range check held, with the sequencer cleared (30_encoding.md R84). -/
theorem ControlInv.after_accept {s : State} (hs : ControlInv s) {i : Instr} (hok : rangeOk i s = true) :
    ControlInv { s with
      done := false, err := false, ovf := false, ign := false, ecode := .none, bytes := 0
      op := some i, rnd := 0, off := 0, j := 0, wlen := 0, ec := .none, phase := firstPhase i s } := by
  have hfirst := firstPhase_cases i s
  generalize firstPhase i s = p at hfirst
  have hne : p ≠ .idle ∧ p ≠ .round ∧ p ≠ .feed ∧ p ≠ .emit := by
    rcases hfirst with ⟨-, rfl⟩ | ⟨-, rfl⟩ | ⟨-, rfl, -⟩ <;> decide
  obtain ⟨hidle, hround, hfeed, hemit⟩ := hne
  have hinc : p = .inc → i = .ctrinc := by
    rcases hfirst with ⟨h, -⟩ | ⟨-, rfl⟩ | ⟨-, rfl, -⟩ <;> simp_all
  exact { hs with
    idleOp := by simp [hidle]
    idleScratch := by simp [hidle]
    blockPhase := fun hb h => by simp [hinc h] at hb
    ctrincPhase := fun hc => by
      rcases hfirst with ⟨-, rfl⟩ | ⟨-, rfl⟩ | ⟨h, -⟩
      · exact .inl rfl
      · exact .inr rfl
      · exact absurd (Option.some.inj hc) h
    rndRound := by simp
    rndBound := by simp
    ecWipe := .inl rfl
    range := fun k hk => by
      cases hk
      refine (rangeOk_congr i ?_ ?_ ?_ ?_).trans hok <;> rfl
    offZero := fun _ => rfl
    offBound := by simp
    offBefore := fun hst h => by
      rcases hfirst with ⟨rfl, -⟩ | ⟨-, rfl⟩ | ⟨-, -, hlen⟩
      · simp [isStream] at hst
      · simp at h
      · exact hlen hst
    window := fun h => by
      obtain ⟨hp, hst⟩ := h.resolve_left hemit
      simp [hinc hp, isStream] at hst
    emitJ := by simp [hemit]
    incJ := fun _ _ => rfl
    ctrincZero := fun _ => ⟨rfl, rfl, rfl⟩
    bytesBefore := fun _ => rfl
    bytesAfter := by simp
    bounds := by simp
    busyReport := by simp
    oneReport := by simp
    ecodeErr := by simp }

/-- HOST's part of the control invariant. -/
theorem hostStep_keeps_controlInv {s t : State} {a : HostAction} (hs : ControlInv s) (h : HostStep s a t) :
    ControlInv t := by
  cases h with
  | dropped hr hd hb => exact hs.unread
  | ignored hr hd => exact hs
  | accepted hr hw hp hok => exact hs.after_accept hok
  | rejected hr hp hc => exact hs.after_reject hp (by rcases hc with rfl | rfl <;> decide)
  | status hr => exact hs.after_writeStatus _
  | cfg hr => exact hs.unread
  | src hr hp => exact hs.operands hp
  | dst hr hp => exact hs.operands hp
  | len hr hp => exact hs.operands hp
  | key hr hp => exact hs.unread
  | nc hr hp => exact hs.unread
  | regRead hr => exact hs.unread
  | memRead ha => exact hs.unread
  | memWrite ha => exact (hs.after_memWrite ha).unread

/-- Settles O51: whichever agent's turn it is, taking the turn changes nothing that the invariant reads, and
the agent's own action keeps it. -/
theorem stepKeepsControlInv : Obligations.StepKeepsControlInv := by
  intro s t hs h
  have hturn : ControlInv (afterTurn s) := hs.unread
  cases step_cases h with
  | engine _ hm => exact microStep_keeps_controlInv hturn hm
  | reset _ => exact hturn.after_reset
  | host _ hh => exact hostStep_keeps_controlInv hturn hh

end Sys2Proof.Machine
end

section
/-! PROOFS. The register window as HOST sees it: layout, reads, writes, STATUS, the drop rule, and RESET. -/

namespace Sys2Proof.Machine

/-! ### The window (10_state.md R27, R35) -/

theorem regAt_offset (p : Platform) {off : Nat} (h : off < 256) :
    regAt p (p.regBase + off) = some (regOfIndex (off / 4)) := by
  simp [regAt, Config.windowBytes, h]

theorem regAt_outside {p : Platform} {addr : Nat} (h : addr < p.regBase ∨ p.regBase + 256 ≤ addr) :
    regAt p addr = none :=
  if_neg (by unfold Config.windowBytes; omega)

theorem Reg.offset_lt (r : Reg) : r.offset + 4 ≤ 256 := by
  cases r <;> simp only [Reg.offset] <;> omega

/-- `addr[1:0]` is ignored. -/
theorem regOfIndex_offset (r : Reg) (k : Fin 4) : regOfIndex ((r.offset + k) / 4) = r := by
  cases r with
  | key i => revert i k; decide
  | nc i => revert i k; decide
  | ksw i => revert i k; decide
  | _ => revert k; decide

/-- The word indices that no register has. -/
theorem regOfIndex_reserved {n : Nat} (h : n = 7 ∨ 20 ≤ n ∧ n < 32 ∨ 48 ≤ n) : regOfIndex n = .reserved := by
  simp (disch := omega) only [regOfIndex, if_neg]

/-- Settles O42: inside the window the word index of the offset selects, and outside it nothing does. -/
theorem windowLayout : Obligations.WindowLayout := by
  refine fun p => ⟨fun r k => ?_, fun off h => ?_, fun addr => regAt_outside⟩
  · have := r.offset_lt
    rw [Nat.add_assoc, regAt_offset p (by omega), regOfIndex_offset]
  · rw [regAt_offset p (by omega), regOfIndex_reserved (by omega)]

/-! ### STATUS (10_state.md R29) -/

/-- The low five bits of STATUS. -/
theorem statusWord_bits (s : State) :
    (statusWord s).getLsbD 0 = s.busy ∧ (statusWord s).getLsbD 1 = s.done ∧ (statusWord s).getLsbD 2 = s.err ∧
      (statusWord s).getLsbD 3 = s.ovf ∧ (statusWord s).getLsbD 4 = s.ign := by
  simp only [statusWord, BitVec.getLsbD_append]
  simp

/-- ECODE is bits 11:8. -/
theorem statusWord_ecode (s : State) : (statusWord s).extractLsb' 8 4 = s.ecode.code := by
  apply BitVec.eq_of_getLsbD_eq
  intro i hi
  simp only [statusWord, BitVec.getLsbD_extractLsb', BitVec.getLsbD_append]
  interval_cases i <;> simp

/-- Bits 7:5 and 31:12 are 0. -/
theorem statusWord_reserved (s : State) : statusWord s &&& statusReserved = 0 := by
  apply BitVec.eq_of_getLsbD_eq
  intro i hi
  simp only [statusWord, BitVec.getLsbD_and, BitVec.getLsbD_append]
  interval_cases i <;> simp [statusReserved]

/-- Settles O37: STATUS is put together field by field. -/
theorem statusLayout : Obligations.StatusLayout := by
  intro s
  obtain ⟨hbusy, hdone, herr, hovf, hign⟩ := statusWord_bits s
  exact ⟨hbusy, hdone, herr, hovf, hign, statusWord_ecode s, statusWord_reserved s⟩

/-- Settles O38: each bit is kept unless its bit of the word is 1. -/
theorem statusWriteOneToClear : Obligations.StatusWriteOneToClear := by
  intro s addr w rest hs hr
  have hclear : ∀ b c : Bool, (b && !c) = if c then false else b := by decide
  exact ⟨_, step_write hs hr, rfl, hclear _ _, hclear _ _, rfl, hclear _ _, hclear _ _⟩

/-! ### Writes (10_state.md R21, R22, R28 to R35) -/

/-- Settles O3: a write at an address that selects CMD is `writeCmd`, which runs the decoded command. -/
theorem stepRunsWrittenCommand : Obligations.StepRunsWrittenCommand := by
  intro s addr w i rest hs hr hw
  rw [step_write hs hr]
  simp only [writeReg, writeCmd, hw]

/-- A CMD write while BUSY is dropped, whatever the word is. -/
theorem writeCmd_busy {w : Word} {s : State} (hb : s.phase ≠ .idle) : writeCmd w s = .next (dropWrite s) := by
  unfold writeCmd
  split
  · exact exec_busy hb
  · rw [rejectIllegal_busy hb]

theorem writeReg_dropped {r : Reg} {w : Word} {s : State} (hd : r.dropped = true) (hb : s.phase ≠ .idle) :
    writeReg r w s = .next (dropWrite s) := by
  cases r with
  | cmd => exact writeCmd_busy hb
  | src | dst | len | key | nc => exact congrArg _ (unlessBusy_busy hb)
  | status | cfg | bytes | ksw | reserved => cases hd

theorem writeReg_ignored {r : Reg} {w : Word} {s : State} (hd : r.ignored = true) :
    writeReg r w s = .next s := by
  cases r with
  | bytes | ksw | reserved => rfl
  | cmd | src | dst | len | key | nc | status | cfg => cases hd

/-- Settles O39: one rule for each class of registers. -/
theorem dropRule : Obligations.DropRule := by
  intro s addr r w rest hs hr
  rw [step_write hs hr]
  exact ⟨fun hd hb => writeReg_dropped hd hb, writeReg_ignored, fun h => h ▸ rfl, fun h => h ▸ rfl⟩

/-- Settles O40: CFG is always written, and an idle CC20 takes every other write. -/
theorem registerWritesTaken : Obligations.RegisterWritesTaken := by
  intro s addr w rest hs
  refine ⟨fun hr => step_write hs hr, fun hp => ?_⟩
  have htaken {r : Reg} {f : State → State} (hr : regAt s.platform addr = some r)
      (hf : ∀ t, writeReg r w t = .next (unlessBusy f t)) : step s = .next (f { s with schedule := rest }) := by
    rw [step_write hs hr, hf, unlessBusy_idle (by exact hp)]
  exact ⟨fun hr => htaken hr fun _ => rfl, fun hr => htaken hr fun _ => rfl, fun hr => htaken hr fun _ => rfl,
    fun _ hr => htaken hr fun _ => rfl, fun _ hr => htaken hr fun _ => rfl⟩

/-! ### Reads (10_state.md R40) -/

theorem cfgWord_eq (s : State) : cfgWord s = if s.ie then 1 else 0 := by
  cases h : s.ie <;> simp [cfgWord, h]

/-- Settles O41: the value is what the register reads as in the state before the read. -/
theorem registerReads : Obligations.RegisterReads := by
  intro s addr r rest hs hr
  exact ⟨readReg r s, step_read hs hr, by rintro (rfl | rfl) <;> rfl, fun _ h => h ▸ rfl, fun h => h ▸ rfl,
    fun h => h ▸ cfgWord_eq s, fun h => h ▸ rfl, fun h => h ▸ rfl, fun h => h ▸ rfl, fun h => h ▸ rfl,
    fun _ h => h ▸ rfl, fun _ h => h ▸ rfl⟩

/-! ### RESET (10_state.md R41, 70_reset_and_hazards.md R230) -/

/-- Every word of a cleared word file is 0. -/
theorem replicate_zero_get {n : Nat} (i : Fin n) : (Vector.replicate n (0 : Word))[i] = 0 :=
  Vector.getElem_replicate i.isLt

theorem readReg_reset (r : Reg) : readReg r State.reset = 0 := by
  cases r with
  | nc i => exact replicate_zero_get i
  | ksw i => exact replicate_zero_get i
  | status => decide
  | cfg => decide
  | _ => rfl

/-- No register reads MEM, the platform, the coming turns or the trace. -/
theorem readReg_resetDevice (r : Reg) (s : State) : readReg r (resetDevice s) = 0 := by
  have h : readReg r (resetDevice s) = readReg r State.reset := by cases r <;> rfl
  rw [h, readReg_reset]

/-- Settles O45: the word files and the registers, word by word. -/
theorem resetValues : Obligations.ResetValues :=
  ⟨replicate_zero_get, replicate_zero_get,
    fun i => ⟨replicate_zero_get i, replicate_zero_get i, replicate_zero_get i⟩, readReg_reset,
    rfl, rfl, rfl, rfl, rfl, rfl, rfl, rfl⟩

/-- Settles O46: a reset turn is `resetDevice`, whose CC20 state is that of `State.reset`. -/
theorem resetEvent : Obligations.ResetEvent := by
  intro s rest hs
  obtain ⟨hkey, hnc, hfiles, -, hphase, hop, hrnd, hoff, hj, hwlen, hec, hirq⟩ := resetValues
  exact ⟨resetDevice { s with schedule := rest }, step_turn hs, rfl, hirq, hkey, hnc, hfiles,
    fun r => readReg_resetDevice r _, hphase, hop, hrnd, hoff, hj, hwlen, hec, rfl, rfl, rfl, rfl⟩

end Sys2Proof.Machine
end

section
/-! PROOFS. What an ENGINE micro-step and a HOST action leave alone: their frames, who moves BUSY, the IRQ
line, and KEY. -/

namespace Sys2Proof.Machine

/-! ### ENGINE's frame -/

/-- ENGINE never writes KEY, the operands, CFG, IGN, the platform or the coming turns. -/
theorem MicroStep.frame {s t : State} (h : MicroStep s t) :
    t.key = s.key ∧ t.src = s.src ∧ t.dst = s.dst ∧ t.len = s.len ∧ t.ie = s.ie ∧ t.ign = s.ign ∧
      t.platform = s.platform ∧ t.schedule = s.schedule := by
  cases h <;> exact ⟨rfl, rfl, rfl, rfl, rfl, rfl, rfl, rfl⟩

/-- NC changes in INC alone. -/
theorem MicroStep.nc_eq {s t : State} (h : MicroStep s t) (hp : s.phase ≠ .inc) : t.nc = s.nc := by
  cases h with
  | inc hi | incOverflow hi => exact absurd hi hp
  | _ => rfl

/-- INC moves the counter word alone (42_counter.md R141). -/
theorem MicroStep.nonce {s t : State} (h : MicroStep s t) {i : Nat} (hi : i < 4) (h0 : 0 ≠ i) :
    t.nc[i] = s.nc[i] := by
  have hinc : (incNc s.nc).1[i] = s.nc[i] := by rw [incNc_fst]; exact Vector.getElem_set_ne _ _ h0
  cases h with
  | inc | incOverflow => exact hinc
  | _ => rfl

/-- Memory changes in EMIT alone (20_memory.md R68). -/
theorem MicroStep.mem_eq {s t : State} (h : MicroStep s t) (hp : s.phase ≠ .emit) : t.mem = s.mem := by
  cases h with
  | emitBlock he | emitXor he | emitKstream he => exact absurd he hp
  | _ => rfl

/-- The address that EMIT stores to (43_stream_xor.md R163). -/
def emitAddr (s : State) : Nat := if s.op = some .block then blockAddr s else outputAddr s

theorem MicroStep.memRead_of_ne {s t : State} (h : MicroStep s t) {a : Nat} (ha : a ≠ emitAddr s) :
    memRead t.mem a = memRead s.mem a := by
  cases h with
  | emitBlock _ _ _ hop | emitXor _ _ _ hop | emitKstream _ _ _ hop =>
    exact memRead_memWrite_of_ne _ _ (by simpa [emitAddr, hop] using ha)
  | _ => rfl

/-- Settles O55: the frame of each kind of state that a micro-step touches. -/
theorem engineFrame : Obligations.EngineFrame := by
  intro s t h
  have hm := engineStep_cases h
  obtain ⟨hkey, hsrc, hdst, hlen, hie, hign, hplat, hsched⟩ := hm.frame
  exact ⟨hkey, hm.nonce _ (by decide), hm.nonce _ (by decide), hm.nonce _ (by decide), hsrc, hdst, hlen, hie,
    hign, hplat, hsched, hm.nc_eq, fun hp a => by rw [hm.mem_eq hp], fun _ _ => hm.memRead_of_ne⟩

/-! ### HOST's frame -/

/-- Settles O56: a HOST action that goes on is one of the kinds of `HostStep`; those that change more are
taken while idle alone. -/
theorem hostFrame : Obligations.HostFrame := by
  intro a s t h
  cases hostStep_cases h with
  | accepted _ _ hp | rejected _ hp | src _ hp | dst _ hp | len _ hp | key _ hp | nc _ hp =>
    exact ⟨rfl, rfl, rfl, rfl, rfl, fun hb => absurd hp hb, fun _ => rfl⟩
  | memWrite ha => exact ⟨rfl, rfl, rfl, rfl, rfl, fun _ => rfl, fun hne => absurd rfl (hne _ _)⟩
  | dropped | ignored | status | cfg | regRead | memRead =>
    exact ⟨rfl, rfl, rfl, rfl, rfl, fun _ => rfl, fun _ => rfl⟩

/-! ### BUSY (10_state.md R29, R37) -/

/-- WIPE alone clears BUSY. -/
theorem MicroStep.idle_iff_wipe {s t : State} (h : MicroStep s t) (hb : s.phase ≠ .idle) :
    t.phase = .idle ↔ s.phase = .wipe := by
  cases h with
  | idle hp => exact absurd hp hb
  | wipe hp => exact iff_of_true rfl hp
  | round hp => simp only [hp]; split <;> decide
  | emitBlock hp | emitXor hp | emitKstream hp => simp only [hp]; split <;> decide
  | inc hp => simp only [hp, incAfter]; split <;> decide
  | _ => simp [*]

/-- Without BUSY no micro-step runs. -/
theorem MicroStep.eq_of_idle {s t : State} (h : MicroStep s t) (hp : s.phase = .idle) : t = s := by
  cases h with
  | idle => rfl
  | _ => simp_all

/-- Accept alone moves PHASE in a HOST action. -/
theorem HostStep.phase_eq {s t : State} {a : HostAction} (h : HostStep s a t) :
    t.phase = s.phase ∨ s.phase = .idle ∧ ∃ addr w i, a = .wr addr w ∧ regAt s.platform addr = some .cmd ∧
      decode w = .command i ∧ rangeOk i s = true := by
  cases h with
  | accepted hr hw hp hok => exact .inr ⟨hp, _, _, _, rfl, hr, hw, hok⟩
  | _ => exact .inl rfl

/-- Settles O58: WIPE, RESET and accept are all that moves PHASE to IDLE or away from it. -/
theorem whoMovesBusy : Obligations.WhoMovesBusy := by
  intro s t h
  cases step_cases h with
  | engine hs hm =>
    exact ⟨fun hb hi => .inr ⟨(hm.idle_iff_wipe hb).1 hi, hs⟩,
      fun hp hb => absurd ((congrArg State.phase (hm.eq_of_idle hp)).trans hp) hb⟩
  | reset hs => exact ⟨fun _ _ => .inl ⟨_, hs⟩, fun _ hb => absurd rfl hb⟩
  | host hs hh =>
    rcases hh.phase_eq with he | ⟨hp, addr, w, i, rfl, hr, hw, hok⟩
    · exact ⟨fun hb hi => absurd (he.symm.trans hi) hb, fun hp hb => absurd (he.trans hp) hb⟩
    · exact ⟨fun hb => absurd hp hb, fun _ _ => ⟨addr, w, _, i, hs, hr, hw,
        (rangeOk_congr i rfl rfl rfl rfl : rangeOk i (afterTurn s) = rangeOk i s).symm.trans hok⟩⟩

/-! ### IRQ (10_state.md R38) -/

/-- Before WIPE no micro-step reports. -/
theorem MicroStep.report_eq {s t : State} (h : MicroStep s t) (hp : s.phase ≠ .wipe) :
    t.done = s.done ∧ t.err = s.err := by
  cases h with
  | wipe hw => exact absurd hw hp
  | _ => exact ⟨rfl, rfl⟩

/-- WIPE reports DONE or ERR, and so raises IRQ when it is enabled (60_exceptions.md R210). -/
theorem irq_wiped (s : State) : (wiped s).irq = s.ie := by
  by_cases h : s.ec = .none <;> simp [State.irq, wiped, h]

/-- While a command runs IRQ is low (60_exceptions.md R211). -/
theorem ControlInv.irq_busy {s : State} (hs : ControlInv s) (hb : s.phase ≠ .idle) : s.irq = false := by
  obtain ⟨hd, he, -⟩ := hs.busyReport hb
  simp [State.irq, hd, he]

/-- IRQ rises with the micro-step that clears BUSY. -/
theorem ControlInv.irq_engineStep {s t : State} (hs : ControlInv s) (hb : s.phase ≠ .idle)
    (h : engineStep s = .next t) : t.irq = (s.ie && decide (t.phase = .idle)) := by
  have hm := engineStep_cases h
  have hidle := hm.idle_iff_wipe hb
  by_cases hw : s.phase = .wipe
  · rw [engineStep_wipe_eq hw] at h
    cases h
    simp [irq_wiped, hidle.2 hw]
  · have hbt : t.phase ≠ .idle := fun hi => hw (hidle.1 hi)
    rw [(engineStep_keeps_controlInv hs h).irq_busy hbt]
    simp [hbt]

/-- A CMD write that is rejected raises IRQ at once (60_exceptions.md R201). -/
theorem irq_writeCmd_rejected {s : State} {w : Word} (hp : s.phase = .idle)
    (hno : ∀ i, decode w = .command i → rangeOk i s = false) : ∃ t, writeCmd w s = .next t ∧ t.irq = s.ie := by
  unfold writeCmd
  split
  · next i hw => exact ⟨_, exec_rejected hp (hno i hw), by simp [State.irq]⟩
  · exact ⟨_, congrArg _ (rejectIllegal_idle hp), by simp [State.irq]⟩

/-- Accept clears the previous report, so IRQ falls (30_encoding.md R84). -/
theorem irq_writeCmd_accepted {s : State} {w : Word} {i : Instr} (hp : s.phase = .idle)
    (hw : decode w = .command i) (hok : rangeOk i s = true) : ∃ t, writeCmd w s = .next t ∧ t.irq = false := by
  simp only [writeCmd, hw]
  exact ⟨_, exec_accepted hp hok, by simp [State.irq]⟩

/-- Settles O44: IRQ is read off the report that each of these steps leaves. -/
theorem irqRisesWithCompletion : Obligations.IrqRisesWithCompletion := by
  refine ⟨fun s => ?_, fun s hs hb => ⟨hs.irq_busy hb, fun t => hs.irq_engineStep hb⟩, fun s addr w rest hsch => ?_⟩
  · obtain ⟨-, hdone, herr, -⟩ := statusWord_bits s
    rw [hdone, herr, State.irq]
  · have hrange (i : Instr) : rangeOk i { s with schedule := rest } = rangeOk i s :=
      rangeOk_congr i rfl rfl rfl rfl
    refine ⟨fun hr hp => ?_, fun hr => ⟨_, step_write hsch hr, rfl⟩, fun hr => ⟨_, step_write hsch hr, rfl⟩⟩
    rw [step_write hsch hr]
    exact ⟨fun hno => irq_writeCmd_rejected hp fun i hw => (hrange i).trans (hno i hw),
      fun i hw hok => irq_writeCmd_accepted hp hw ((hrange i).trans hok)⟩

/-! ### KEY (10_state.md R21)

Each lemma runs one operation from a state and from the same state with another KEY. -/

/-- The state with another KEY. -/
def State.withKey (s : State) (k : Vector Word 8) : State := { s with key := k }

/-- A CMD write of a command does the same under any KEY. -/
theorem exec_withKey (i : Instr) (s : State) (k : Vector Word 8) :
    ∃ t, exec i s = .next t ∧ exec i (s.withKey k) = .next (t.withKey k) := by
  have hrange : rangeOk i (s.withKey k) = rangeOk i s := rangeOk_congr i rfl rfl rfl rfl
  have hfirst : firstPhase i (s.withKey k) = firstPhase i s := by cases i <;> rfl
  by_cases hp : s.phase = .idle
  · cases hok : rangeOk i s
    · exact ⟨_, exec_rejected hp hok, exec_rejected hp (hrange.trans hok)⟩
    · refine ⟨_, exec_accepted hp hok, ?_⟩
      rw [exec_accepted (s := s.withKey k) hp (hrange.trans hok), hfirst]
      rfl
  · exact ⟨_, exec_busy hp, exec_busy hp⟩

theorem rejectIllegal_withKey (s : State) (k : Vector Word 8) :
    rejectIllegal (s.withKey k) = (rejectIllegal s).withKey k := by
  by_cases hp : s.phase = .idle
  · rw [rejectIllegal_idle hp, rejectIllegal_idle (s := s.withKey k) hp]; rfl
  · rw [rejectIllegal_busy hp, rejectIllegal_busy (s := s.withKey k) hp]; rfl

theorem writeCmd_withKey {w : Word} {s t : State} (k : Vector Word 8) (h : writeCmd w s = .next t) :
    writeCmd w (s.withKey k) = .next (t.withKey k) := by
  unfold writeCmd at h ⊢
  cases hw : decode w with
  | command i =>
    obtain ⟨u, hu, hk⟩ := exec_withKey i s k
    simp only [hw, hu] at h ⊢
    cases h
    exact hk
  | illegal r =>
    simp only [hw] at h ⊢
    cases h
    rw [rejectIllegal_withKey]

/-- A write that BUSY drops does the same to all but KEY, when its effect while idle does. -/
theorem unlessBusy_withKey {f : State → State} {s : State} {k k' : Vector Word 8}
    (hf : f (s.withKey k) = (f s).withKey k') :
    ∃ k'', unlessBusy f (s.withKey k) = (unlessBusy f s).withKey k'' := by
  by_cases hp : s.phase = .idle
  · exact ⟨k', by rw [unlessBusy_idle hp, unlessBusy_idle (s := s.withKey k) hp, hf]⟩
  · exact ⟨k, by rw [unlessBusy_busy hp, unlessBusy_busy (s := s.withKey k) hp]; rfl⟩

/-- A register write does the same to all but KEY. -/
theorem writeReg_withKey {r : Reg} {w : Word} {s t : State} (k : Vector Word 8)
    (h : writeReg r w s = .next t) : ∃ k', writeReg r w (s.withKey k) = .next (t.withKey k') := by
  cases r with
  | cmd => exact ⟨k, writeCmd_withKey k h⟩
  | status | cfg | bytes | ksw | reserved => cases h; exact ⟨k, rfl⟩
  | src | dst | len | nc => cases h; exact (unlessBusy_withKey (k' := k) rfl).imp fun _ => congrArg _
  | key i => cases h; exact (unlessBusy_withKey (k' := k.set i w) rfl).imp fun _ => congrArg _

/-- No register reads KEY (10_state.md R40). -/
theorem readReg_withKey (r : Reg) (s : State) (k : Vector Word 8) :
    readReg r (s.withKey k) = readReg r s := by cases r <;> rfl

/-- Settles O60: a write does the same to all but KEY, and no read sees KEY. -/
theorem hostCannotReadKey : Obligations.HostCannotReadKey := by
  intro a s t k h
  show ∃ k', hostStep a (s.withKey k) = .next (t.withKey k')
  have hplat : (s.withKey k).platform = s.platform := rfl
  cases a with
  | wr addr w =>
    simp only [hostStep, hplat] at h ⊢
    cases hr : regAt s.platform addr with
    | none => simp [hr] at h
    | some r =>
      simp only [hr] at h ⊢
      exact writeReg_withKey k h
  | rd addr =>
    cases hostStep_cases h with
    | regRead hr =>
      refine ⟨k, ?_⟩
      simp only [hostStep, hplat, hr, readReg_withKey]
      rfl
  | mwr b v => cases hostStep_cases h with | memWrite hb => exact ⟨k, if_pos (hasByte_iff.2 hb)⟩
  | mrd b => cases hostStep_cases h with | memRead hb => exact ⟨k, if_pos (hasByte_iff.2 hb)⟩
  | regOther => cases h

end Sys2Proof.Machine
end

section
/-! PROOFS. Memory as its bytes, and HOST's accesses of it: byte reads and writes, their faults, and the
register accesses that are refused. -/

namespace Sys2Proof.Machine

/-! ### Memory is its bytes (20_memory.md R71, R79) -/

/-- The later of two writes to one address hides the earlier. -/
theorem memWrite_overwrite {m : Memory} (hm : m.wf = true) (a : Nat) (v w : Byte) :
    memWrite (memWrite m a v) a w = memWrite m a w := by
  refine Memory.ext_of_wf (memWrite_wf _ _ _ (memWrite_wf _ _ _ hm)) (memWrite_wf _ _ _ hm) fun c => ?_
  simp only [memRead_memWrite_eq]
  split <;> rfl

/-- Writing the byte already there changes nothing. -/
theorem memWrite_memRead {m : Memory} (hm : m.wf = true) (a : Nat) : memWrite m a (memRead m a) = m := by
  refine Memory.ext_of_wf (memWrite_wf _ _ _ hm) hm fun c => ?_
  rw [memRead_memWrite_eq]
  split
  · next hc => rw [hc]
  · rfl

/-- Writes to two addresses can change places. -/
theorem memWrite_comm {m : Memory} (hm : m.wf = true) {a b : Nat} (hab : a ≠ b) (v w : Byte) :
    memWrite (memWrite m a v) b w = memWrite (memWrite m b w) a v := by
  refine Memory.ext_of_wf (memWrite_wf _ _ _ (memWrite_wf _ _ _ hm)) (memWrite_wf _ _ _ (memWrite_wf _ _ _ hm))
    fun c => ?_
  simp only [memRead_memWrite_eq]
  by_cases hb : c = b
  · have ha : c ≠ a := fun ha => hab (ha.symm.trans hb)
    rw [if_pos hb, if_neg ha, if_pos hb]
  · rw [if_neg hb, if_neg hb]

/-- Settles O47: reads of a written memory byte by byte, and canonical memories that read alike are equal. -/
theorem memoryIsItsBytes : Obligations.MemoryIsItsBytes := by
  intro m a b v w hm
  exact ⟨memWrite_wf m a v hm, memRead_memWrite_eq m a b v, memWrite_overwrite hm a v w, memWrite_memRead hm a,
    fun hab => memWrite_comm hm hab v w⟩

/-! ### HOST's byte accesses (30_encoding.md R88) -/

/-- The state after HOST stored `v` at `a`. -/
def hostWrote (a : Nat) (v : Byte) (s : State) : State :=
  { s with mem := memWrite s.mem a v, trace := .hostMemWrite a v :: s.trace }

theorem hostMemWrite_in {a : Nat} {v : Byte} {s : State} (h : a < 2 ^ s.platform.addrW) :
    hostMemWrite a v s = .next (hostWrote a v s) := if_pos (hasByte_iff.2 h)

theorem hostMemWrite_out {a : Nat} {v : Byte} {s : State} (h : 2 ^ s.platform.addrW ≤ a) :
    hostMemWrite a v s = .fault (.memoryAddress a) := if_neg (mt hasByte_iff.1 h.not_gt)

theorem hostMemRead_in {a : Nat} {s : State} (h : a < 2 ^ s.platform.addrW) :
    hostMemRead a s = .next { s with trace := .hostMemRead a (memRead s.mem a) :: s.trace } :=
  if_pos (hasByte_iff.2 h)

theorem hostMemRead_out {a : Nat} {s : State} (h : 2 ^ s.platform.addrW ≤ a) :
    hostMemRead a s = .fault (.memoryAddress a) := if_neg (mt hasByte_iff.1 h.not_gt)

/-- Settles O48: the turn is HOST's byte access, which finds its byte below 2^P_ADDR_W alone. -/
theorem hostByteAccess : Obligations.HostByteAccess := by
  intro s a v rest
  refine ⟨fun hs => ?_, fun hs => ?_⟩ <;> rw [step_turn hs]
  · exact ⟨fun h => hostMemWrite_in (by exact h), fun h => hostMemWrite_out (by exact h)⟩
  · exact ⟨fun h => hostMemRead_in (by exact h), fun h => hostMemRead_out (by exact h)⟩

/-! ### Register accesses that are refused (20_memory.md R66) -/

theorem hostStep_wr_outside {s : State} {addr : Nat} {w : Word} (h : regAt s.platform addr = none) :
    hostStep (.wr addr w) s = .refused (.outsideRegisterWindow addr) := by
  simp only [hostStep, h]

theorem hostStep_rd_outside {s : State} {addr : Nat} (h : regAt s.platform addr = none) :
    hostStep (.rd addr) s = .refused (.outsideRegisterWindow addr) := by
  simp only [hostStep, h]

/-- Settles O43: no meaning is given to another width, and outside the window no register is selected. -/
theorem badRegisterAccessRefused : Obligations.BadRegisterAccessRefused := by
  intro s addr w width rest
  refine ⟨fun hs => step_turn hs, fun hout => ⟨fun hs => ?_, fun hs => ?_⟩⟩ <;> rw [step_turn hs]
  · exact hostStep_wr_outside (regAt_outside hout)
  · exact hostStep_rd_outside (regAt_outside hout)

/-! ### The word that `withFetchWord` places (20_memory.md R75) -/

theorem decode_of_decodeTableWord {nbits w : Nat} {i : Instr} (h : decodeTableWord nbits w = some i) :
    decode (BitVec.ofNat 32 (w % 2 ^ nbits)) = .command i := by
  unfold decodeTableWord tableWord at h
  split at h
  · cases h
  · next v hv =>
    obtain rfl : BitVec.ofNat 32 (w % 2 ^ nbits) = v := by
      split at hv
      · exact Option.some.inj hv
      · cases hv
    split at h
    · next k hk => rw [hk, Option.some.inj h]
    · cases h

/-- Settles O4: the placed turn is a CMD write of the word, and taking it leaves the state as it was. -/
theorem fetchedWordRuns : Obligations.FetchedWordRuns := by
  intro s nbits w i h
  exact stepRunsWrittenCommand (s.withFetchWord nbits w) _ _ i s.schedule rfl (regAt_addrOf _ _)
    (decode_of_decodeTableWord h)

end Sys2Proof.Machine
end

section
/-! PROOFS. What every step says about memory: the trace explains it, only HOST's bad accesses stop, and a
HOST write elsewhere commutes with ENGINE. -/

namespace Sys2Proof.Machine

/-! ### The trace explains memory (20_memory.md R62, R71) -/

/-- The events recorded from `s` to `t` account for every byte of `t`. -/
def Explained (s t : State) : Prop :=
  ∃ es, t.trace = es ++ s.trace ∧ ∀ a, memRead t.mem a = (lastWrite es a).getD (memRead s.mem a)

/-- Nothing recorded, nothing written. -/
theorem Explained.of_eq {s t : State} (hm : t.mem = s.mem) (ht : t.trace = s.trace) : Explained s t :=
  ⟨[], ht, fun a => by rw [hm]; rfl⟩

/-- A recorded read leaves memory alone. -/
theorem Explained.of_read {s t : State} {e : Event} (hm : t.mem = s.mem) (ht : t.trace = e :: s.trace)
    (he : ∀ a, lastWrite [e] a = none) : Explained s t :=
  ⟨[e], ht, fun a => by rw [hm, he]; rfl⟩

/-- A byte write whose record is the newest event, with no other write recorded in `es` before it. -/
theorem Explained.of_write {s t : State} {e : Event} {es : List Event} {b : Nat} {v : Byte}
    (hm : t.mem = memWrite s.mem b v) (ht : t.trace = e :: (es ++ s.trace))
    (he : ∀ a, lastWrite (e :: es) a = if a = b then some v else none) : Explained s t := by
  refine ⟨e :: es, ht, fun a => ?_⟩
  rw [hm, memRead_memWrite_eq, he]
  split <;> rfl

theorem MicroStep.explained {s t : State} (h : MicroStep s t) : Explained s t := by
  cases h with
  | emitBlock | emitKstream => exact .of_write (es := []) rfl rfl fun _ => rfl
  | emitXor => exact .of_write (es := [.engineRead (inputAddr s)]) rfl rfl fun _ => rfl
  | _ => exact .of_eq rfl rfl

theorem HostStep.explained {s t : State} {a : HostAction} (h : HostStep s a t) : Explained s t := by
  cases h with
  | memWrite => exact .of_write (es := []) rfl rfl fun _ => rfl
  | regRead | memRead => exact .of_read rfl rfl fun _ => rfl
  | _ => exact .of_eq rfl rfl

/-- Settles O49: taking the turn changes neither memory nor trace, and each agent records what it writes. -/
theorem traceExplainsMemory : Obligations.TraceExplainsMemory := by
  intro s t h
  show Explained (afterTurn s) t
  cases step_cases h with
  | engine _ hm => exact hm.explained
  | reset _ => exact .of_eq rfl rfl
  | host _ hh => exact hh.explained

/-! ### Only a HOST access that does not exist stops (20_memory.md R62, R66) -/

/-- `r` is the stop that HOST's access `a` at `addr` makes when the port or memory does not have it. -/
def BadAccess (p : Platform) (a : HostAction) (addr : Nat) (r : Result) : Prop :=
  ((∃ v, a = .mwr addr v) ∨ a = .mrd addr) ∧ 2 ^ p.addrW ≤ addr ∧ r = .fault (.memoryAddress addr) ∨
    ((∃ v, a = .wr addr v) ∨ a = .rd addr) ∧ regAt p addr = none ∧ r = .refused (.outsideRegisterWindow addr) ∨
    (∃ width, a = .regOther width addr) ∧ r = .refused (.registerAccessWidth addr)

/-- A write to a register goes on, whichever it is. -/
theorem writeReg_next (r : Reg) (w : Word) (s : State) : ∃ t, writeReg r w s = .next t := by
  cases r with
  | cmd =>
    simp only [writeReg, writeCmd]
    split
    · exact ⟨_, exec_eq _ s⟩
    · exact ⟨_, rfl⟩
  | _ => exact ⟨_, rfl⟩

theorem hostStep_next_or_badAccess (a : HostAction) (s : State) :
    (∃ t, hostStep a s = .next t) ∨ ∃ addr, BadAccess s.platform a addr (hostStep a s) := by
  cases a with
  | wr addr w =>
    cases hr : regAt s.platform addr with
    | none => exact .inr ⟨addr, .inr (.inl ⟨.inl ⟨w, rfl⟩, hr, hostStep_wr_outside hr⟩)⟩
    | some r =>
      simp only [hostStep, hr]
      exact .inl (writeReg_next r w s)
  | rd addr =>
    cases hr : regAt s.platform addr with
    | none => exact .inr ⟨addr, .inr (.inl ⟨.inr rfl, hr, hostStep_rd_outside hr⟩)⟩
    | some r =>
      simp only [hostStep, hr]
      exact .inl ⟨_, rfl⟩
  | mwr addr v =>
    rcases Nat.lt_or_ge addr (2 ^ s.platform.addrW) with h | h
    · exact .inl ⟨_, hostMemWrite_in h⟩
    · exact .inr ⟨addr, .inl ⟨.inl ⟨v, rfl⟩, h, hostMemWrite_out h⟩⟩
  | mrd addr =>
    rcases Nat.lt_or_ge addr (2 ^ s.platform.addrW) with h | h
    · exact .inl ⟨_, hostMemRead_in h⟩
    · exact .inr ⟨addr, .inl ⟨.inr rfl, h, hostMemRead_out h⟩⟩
  | regOther width addr => exact .inr ⟨addr, .inr (.inr ⟨⟨width, rfl⟩, rfl⟩)⟩

/-- Settles O53: ENGINE's turn goes on under the invariant, RESET always does, and HOST's does unless the
access is a bad one. -/
theorem onlyBadHostAccessStops : Obligations.OnlyBadHostAccessStops := by
  intro s hs
  refine ⟨hs.engineStep_next, ?_⟩
  show _ ∨ ∃ a addr rest, s.schedule = .host a :: rest ∧ BadAccess s.platform a addr (step s)
  cases hsch : s.schedule with
  | nil =>
    rw [step_nil hsch]
    exact .inl hs.engineStep_next
  | cons turn rest =>
    rw [step_turn hsch]
    cases turn with
    | engine => exact .inl (ControlInv.engineStep_next hs.unread)
    | reset => exact .inl ⟨_, rfl⟩
    | host a =>
      refine (hostStep_next_or_badAccess a { s with schedule := rest }).imp_right ?_
      rintro ⟨addr, hbad⟩
      exact ⟨a, addr, rest, rfl, hbad⟩

/-! ### A HOST write beside the next micro-step (20_memory.md R71, R77) -/

/-- Every kind of micro-step is one that ENGINE takes: the converse of `engineStep_cases`. -/
theorem MicroStep.engineStep_eq {s t : State} (h : MicroStep s t) : engineStep s = .next t := by
  cases h with
  | idle hp => exact engineStep_idle hp
  | init hp => exact engineStep_init hp
  | round hp hr => exact engineStep_round hp hr
  | feed hp hop => exact engineStep_feed hp hop
  | emitBlock hp hj hw hop ho => rw [engineStep_emit hp hj hw, ← emitBlock_in ho, hop]
  | emitXor hp hj hw hop hi ho => rw [engineStep_emit hp hj hw, ← emitXor_in hi ho, hop]
  | emitKstream hp hj hw hop ho => rw [engineStep_emit hp hj hw, ← emitKstream_in ho, hop]
  | incOverflow hp hop hc | inc hp hop hc => rw [engineStep_inc hp hop, hc]; rfl
  | wipe hp => exact engineStep_wipe hp

/-- A stream's EMIT stores at `DST + OFF + J`. -/
theorem emitAddr_stream {s : State} {i : Instr} (hop : s.op = some i) (hi : i ≠ .block) :
    emitAddr s = outputAddr s := if_neg fun h => hi (Option.some.inj (hop.symm.trans h))

/-- States that agree in all but memory and trace, and in memory, agree in all but the trace. -/
theorem eq_but_trace {t u : State} (hm : u.mem = t.mem) (h : u = { t with mem := u.mem, trace := u.trace }) :
    u = { t with trace := u.trace } := by
  rw [hm] at h
  exact h

/-- A micro-step taken after a HOST write can be taken before it, when it touches another byte. -/
theorem MicroStep.before_hostWrote {s u : State} {a : Nat} {v : Byte} (h : MicroStep (hostWrote a v s) u)
    (hm : s.mem.wf = true) (hout : s.phase = .emit → a ≠ emitAddr s)
    (hin : s.phase = .emit → s.op = some .xor → a ≠ inputAddr s) :
    ∃ t, MicroStep s t ∧ u = { hostWrote a v t with trace := u.trace } := by
  have hswap (hp : s.phase = .emit) {b : Nat} (hb : emitAddr s = b) {w w' : Byte} (hw : w = w') :
      memWrite (memWrite s.mem a v) b w = memWrite (memWrite s.mem b w') a v :=
    hw ▸ memWrite_comm hm (hb ▸ hout hp) v w
  cases h with
  | idle hp => exact ⟨_, .idle hp, rfl⟩
  | init hp => exact ⟨_, .init hp, rfl⟩
  | round hp hr => exact ⟨_, .round hp hr, rfl⟩
  | feed hp hop => exact ⟨_, .feed hp hop, rfl⟩
  | incOverflow hp hop hc => exact ⟨_, .incOverflow hp hop hc, rfl⟩
  | inc hp hop hc => exact ⟨_, .inc hp hop hc, rfl⟩
  | wipe hp => exact ⟨_, .wipe hp, rfl⟩
  | emitBlock hp hj hw hop ho =>
    exact ⟨_, .emitBlock hp hj hw hop ho, eq_but_trace (hswap hp (if_pos hop) rfl) rfl⟩
  | emitKstream hp hj hw hop ho =>
    exact ⟨_, .emitKstream hp hj hw hop ho, eq_but_trace (hswap hp (emitAddr_stream hop (by decide)) rfl) rfl⟩
  | emitXor hp hj hw hop hi ho =>
    have hread : memRead (memWrite s.mem a v) (inputAddr s) = memRead s.mem (inputAddr s) :=
      memRead_memWrite_of_ne _ _ (hin hp hop).symm
    exact ⟨_, .emitXor hp hj hw hop hi ho,
      eq_but_trace (hswap hp (emitAddr_stream hop (by decide)) (congrArg (· ^^^ ser s.ks s.j) hread)) rfl⟩

/-- Settles O57: the micro-step after the write is one that ENGINE can take first. -/
theorem hostWriteElsewhereCommutes : Obligations.HostWriteElsewhereCommutes := by
  intro s s1 s2 a v hm hw he hout hin
  cases hostStep_cases hw with
  | memWrite ha =>
    obtain ⟨t, ht, heq⟩ := (engineStep_cases he).before_hostWrote hm hout hin
    obtain ⟨-, -, -, -, -, -, hplat, -⟩ := ht.frame
    exact ⟨t, _, ht.engineStep_eq, hostMemWrite_in (hplat ▸ ha), heq⟩

end Sys2Proof.Machine
end

section
/-! PROOFS. XOR from its CMD write to BUSY = 0, for every placement of SRC and DST. -/

namespace Sys2Proof.Machine

theorem rangeOk_xor {s : State} (hsrc : s.src.toNat + s.len.toNat ≤ 2 ^ s.platform.addrW)
    (hdst : s.dst.toNat + s.len.toNat ≤ 2 ^ s.platform.addrW) : rangeOk .xor s = true := by
  simp [rangeOk, rangeOkXor, rangeFits, hsrc, hdst]

/-- Settles O13: XOR is a stream whose EMIT micro-steps make `xorMemory` and `xorTrace`. -/
theorem xorWholeCommand : Obligations.XorWholeCommand := by
  intro s hp hsrc hdst
  have hok := rangeOk_xor hsrc hdst
  obtain ⟨t, u, hexec, hends, hend, hmem, htrace, hbytes, hnc, hstatus, -⟩ :=
    stream_whole rfl hp hok (emits_xor hok) rfl rfl
  exact ⟨t, u, hexec, hends, hend, hmem, htrace, fun a ha => hmem ▸ memRead_xorMemory_outside s _ a ha, hbytes,
    hnc, hstatus⟩

/-- An output byte, once written, stays as it is. -/
theorem memRead_xorMemory_stable (s : State) {k m n : Nat} (hm : k < m) (hn : k < n) :
    memRead (xorMemory s m) (s.dst.toNat + k) = memRead (xorMemory s n) (s.dst.toNat + k) := by
  rw [memRead_xorMemory_inside s m k hm, memRead_xorMemory_inside s n k hn]

/-- The input byte that XOR reads at `o`, where the output runs into the input `d` bytes ahead: its own one
below `d`, and from there on the output byte `d` before (20_memory.md R78). -/
theorem memRead_xorMemory_input {s : State} {d n o : Nat} (hd : s.dst.toNat = s.src.toNat + d) (hpos : 0 < d)
    (ho : o < n) : memRead (xorMemory s o) (s.src.toNat + o) =
      if o < d then memRead s.mem (s.src.toNat + o) else memRead (xorMemory s n) (s.dst.toNat + (o - d)) := by
  split
  · next h => exact memRead_xorMemory_outside s o _ (.inl (by omega))
  · next h =>
    have haddr : s.src.toNat + o = s.dst.toNat + (o - d) := by omega
    rw [haddr]
    exact memRead_xorMemory_stable s (by omega) (by omega)

/-- Settles O15: each output byte is the XOR of the input byte as it was when XOR read it. -/
theorem xorForwardOverlap : Obligations.XorForwardOverlap := by
  intro s hp hsrc hdst hover
  obtain ⟨t, u, hexec, hends, -, hmem, -, -, hbytes, -⟩ := xorWholeCommand s hp hsrc hdst
  refine ⟨u, ⟨t, _, hexec, hends⟩, fun o ho => ?_⟩
  rw [hbytes] at ho
  obtain ⟨hlt, -⟩ := hover
  rw [hmem, memRead_xorMemory_inside s _ o ho,
    memRead_xorMemory_input (d := s.dst.toNat - s.src.toNat) (by omega) (by omega) ho]

end Sys2Proof.Machine
end

section
/-! PROOFS. The command word: the decoder as the inverse of the encoder, and what the CMD write of a legal
and of an illegal word does. -/

namespace Sys2Proof.Machine

/-! ### The decoder (30_encoding.md R80 to R87) -/

/-- The opcode map is the inverse of `opcodeOf`. -/
theorem opcodeMap_eq_command_iff {op : BitVec 4} {i : Instr} : opcodeMap op = .command i ↔ op = opcodeOf i := by
  revert op
  cases i <;> decide

/-- A word is RSV above OP. -/
theorem rsvField_append_opField (w : Word) : rsvField w ++ opField w = w :=
  BitVec.extractLsb'_append_extractLsb' (w := 28) (len := 4)

@[simp] theorem rsvField_encode (i : Instr) : rsvField (encode i) = 0 := by cases i <;> decide

@[simp] theorem opField_encode (i : Instr) : opField (encode i) = opcodeOf i := by cases i <;> decide

/-- A word decodes as a command exactly when it is the word of that command. -/
theorem decode_eq_command_iff {w : Word} {i : Instr} : decode w = .command i ↔ w = encode i := by
  constructor
  · intro h
    unfold decode at h
    split at h
    · next hrsv => rw [← rsvField_append_opField w, hrsv, opcodeMap_eq_command_iff.1 h, encode]
    · cases h
  · rintro rfl
    rw [decode, rsvField_encode, opField_encode, if_pos rfl, opcodeMap_eq_command_iff]

/-- A word is illegal exactly when it is no command's word. -/
theorem decode_illegal_iff {w : Word} : (∃ r, decode w = .illegal r) ↔ ∀ i, w ≠ encode i := by
  simp only [ne_eq, ← decode_eq_command_iff]
  cases decode w <;> simp

/-- Settles O2: the decoder inverts the encoder, and illegal are the words that encode no command. -/
theorem decoderTotalAndUnambiguous : Obligations.DecoderTotalAndUnambiguous := by
  refine ⟨rfl, rfl, rfl, rfl, fun w => ⟨fun i => ?_, ?_⟩⟩
  · have hmask : w &&& 0xFFFFFFFF = w := BitVec.and_allOnes
    rw [hmask, decode_eq_command_iff]
  · rw [decode_illegal_iff]
    refine ⟨fun h => ⟨h .block, h .xor, h .kstream, h .ctrinc⟩, fun ⟨hb, hx, hk, hc⟩ i => ?_⟩
    cases i with
    | block => exact hb
    | xor => exact hx
    | kstream => exact hk
    | ctrinc => exact hc

/-- Settles O1: nine words run through the decoder. -/
theorem commandWordsDecode : Obligations.CommandWordsDecode := by
  unfold Obligations.CommandWordsDecode
  decide

/-! ### The CMD write (30_encoding.md R84) -/

/-- Settles O10: a CMD write is dropped, accepted or rejected, and none of the three writes a field of the
frame. -/
theorem commandWriteFrame : Obligations.CommandWriteFrame := by
  intro s t i h
  by_cases hp : s.phase = .idle
  · cases hok : rangeOk i s with
    | true =>
      cases (exec_accepted hp hok).symm.trans h
      simp [hp]
    | false =>
      cases (exec_rejected hp hok).symm.trans h
      simp [hp]
  · cases (exec_busy hp).symm.trans h
    simp

theorem writeCmd_illegal {w : Word} {r : DecodeReject} {s : State} (hw : decode w = .illegal r) :
    writeCmd w s = .next (rejectIllegal s) := by
  simp only [writeCmd, hw]

/-- STATUS after an ILLEGAL_CMD rejection: ERR, and ECODE = 1 (60_exceptions.md R201). -/
theorem statusWord_rejectIllegal {s : State} (hp : s.phase = .idle) :
    statusWord (rejectIllegal s) = 0x00000104 := by
  rw [rejectIllegal_idle hp, statusWord_idle (by exact hp) rfl]
  simp [ErrorCode.code]

/-- Settles O5: the CMD write of an illegal word is `rejectIllegal`. -/
theorem illegalWordRejected : Obligations.IllegalWordRejected := by
  intro s addr w r rest hs hr hw
  have hstep : step s = .next (rejectIllegal { s with schedule := rest }) :=
    (step_write hs hr).trans (writeCmd_illegal hw)
  exact ⟨fun hb => hstep.trans (congrArg _ (rejectIllegal_busy hb)),
    fun hp => ⟨_, hstep, statusWord_rejectIllegal hp, rejectIllegal_idle hp⟩⟩

/-- BLOCK's range check looks at DST alone (60_exceptions.md R200). -/
theorem rangeOk_block {s : State} (hdst : s.dst.toNat + 64 ≤ 2 ^ s.platform.addrW) : rangeOk .block s = true :=
  decide_eq_true hdst

theorem rangeOk_kstream {s : State} (hdst : s.dst.toNat + s.len.toNat ≤ 2 ^ s.platform.addrW) :
    rangeOk .kstream s = true :=
  decide_eq_true hdst

/-- LEN = 0 as a word and as a number. -/
theorem streamFirst_eq (s : State) : streamFirst s = if s.len.toNat = 0 then .wipe else .init := by
  simp [streamFirst, BitVec.toNat_eq]

/-- Settles O6: BLOCK's range check holds, and its first phase is INIT. -/
theorem blockAccepted : Obligations.BlockAccepted := fun _ hp hdst => exec_accepted hp (rangeOk_block hdst)

/-- Settles O7: the range checks hold, and the first phase is that of a stream. -/
theorem streamsAccepted : Obligations.StreamsAccepted := by
  intro s hp hdst
  rw [← streamFirst_eq]
  exact ⟨fun hsrc => exec_accepted hp (rangeOk_xor hsrc hdst), exec_accepted hp (rangeOk_kstream hdst)⟩

/-- Settles O8: CTRINC has no range to check, and its first phase is INC. -/
theorem ctrincAccepted : Obligations.CtrincAccepted := fun _ hp => exec_accepted hp rfl

end Sys2Proof.Machine
end

section
/-! PROOFS. Every agent keeps the datapath invariant (40_quarter_round.md R109, 41_block_function.md R121 and
R126). -/

namespace Sys2Proof.Machine

/-- In the phases where no word file is in use the invariant asks for nothing. -/
theorem DataInv.of_unused {t : State} (hp : t.phase ≠ .round ∧ t.phase ≠ .feed ∧ t.phase ≠ .emit) :
    DataInv t :=
  have ⟨hr, hf, he⟩ := hp
  ⟨fun h => absurd h hr, fun h => absurd h hf, fun h => absurd h he⟩

/-- Once KS holds the block, the invariant lasts to the end of the window. -/
theorem DataInv.of_ks {t : State} (hp : t.phase ≠ .round ∧ t.phase ≠ .feed)
    (hks : t.ks = blockWords t.key t.nc) : DataInv t :=
  have ⟨hr, hf⟩ := hp
  ⟨fun h => absurd h hr, fun h => absurd h hf, fun _ => hks⟩

/-- ROUND takes X from the first RND rounds of the input state to the first RND + 1 (R109). -/
theorem DataInv.after_round {s : State} (hs : DataInv s) (hp : s.phase = .round) :
    DataInv { s with
      xfile := roundFn s.xfile s.rnd, rnd := s.rnd + 1
      phase := if s.rnd + 1 = 20 then .feed else .round } := by
  obtain ⟨hsfile, hxfile⟩ := hs.round hp
  have hnext : roundFn s.xfile s.rnd = roundsTo (initState s.key s.nc) (s.rnd + 1) := by rw [hxfile]; rfl
  by_cases hlast : s.rnd + 1 = 20
  · have hperm : roundFn s.xfile s.rnd = permute (initState s.key s.nc) := by rw [hnext, hlast]; rfl
    exact ⟨by simp [hlast], fun _ => ⟨hsfile, hperm⟩, by simp [hlast]⟩
  · exact ⟨fun _ => ⟨hsfile, hnext⟩, by simp [hlast], by simp [hlast]⟩

/-- FEED makes KS the block, from the X and S that ROUND left (R126). -/
theorem DataInv.feedForward_eq {s : State} (hs : DataInv s) (hp : s.phase = .feed) :
    feedForward s.xfile s.sfile = blockWords s.key s.nc := by
  obtain ⟨hsfile, hxfile⟩ := hs.feed hp
  rw [hsfile, hxfile, blockWords]

theorem incAfter_cases (s : State) : incAfter s = .init ∨ incAfter s = .wipe :=
  ite_eq_or_eq _ _ _

/-- ENGINE's part of the datapath invariant. -/
theorem MicroStep.keeps_dataInv {s t : State} (hs : DataInv s) (h : MicroStep s t) : DataInv t := by
  cases h with
  | idle => exact hs
  | init => exact ⟨fun _ => ⟨rfl, rfl⟩, nofun, nofun⟩
  | round hp => exact hs.after_round hp
  | feed hp => exact .of_ks (by simp) (hs.feedForward_eq hp)
  | emitBlock hp | emitXor hp | emitKstream hp =>
    exact .of_ks (by dsimp only; split <;> decide) (hs.emit hp)
  | inc =>
    rcases incAfter_cases s with ha | ha <;> exact .of_unused (by simp [ha])
  | incOverflow | wipe => exact .of_unused (by simp)

/-- HOST's part of the datapath invariant: KEY, NC and PHASE change while idle alone, and no HOST action
writes a word file. -/
theorem HostStep.keeps_dataInv {s t : State} {a : HostAction} (hs : DataInv s) (h : HostStep s a t) :
    DataInv t := by
  cases h with
  | @accepted _ _ i =>
    rcases firstPhase_cases i s with ⟨-, hf⟩ | ⟨-, hf⟩ | ⟨-, hf, -⟩ <;> exact .of_unused (by simp [hf])
  | key _ hp | nc _ hp => exact .of_unused (by simp [hp])
  | _ => exact { hs with }

/-- Settles O52: taking the turn changes nothing that the invariant reads, RESET leaves PHASE = IDLE, and
ENGINE's and HOST's actions keep it. -/
theorem stepKeepsDataInv : Obligations.StepKeepsDataInv := by
  intro s t hs h
  have hturn : DataInv (afterTurn s) := { hs with }
  cases step_cases h with
  | engine _ hm => exact hm.keeps_dataInv hturn
  | reset _ => exact .of_unused (by simp [State.reset])
  | host _ hh => exact hh.keeps_dataInv hturn

end Sys2Proof.Machine
end

section
/-! PROOFS. The quarter-round as four invertible stages, a round as four quarter-rounds on disjoint groups of
words, and the rounds of a block (40_quarter_round.md R100 to R110). -/

namespace Sys2Proof.Machine

/-! ### The quarter-round (R100, R103) -/

/-- Two rotations that add up to the word width undo each other. -/
theorem rotl32_rotl32 (v : Word) {m n : Nat} (hm : 0 < m) (hn : 0 < n) (h : m + n = 32) :
    rotl32 (rotl32 v m) n = v := by
  rw [rotl32_eq_rotateLeft _ _ (by omega), rotl32_eq_rotateLeft _ _ (by omega)]
  ext i hi : 1
  have hm32 : m % 32 = m := Nat.mod_eq_of_lt (by omega)
  have hn32 : n % 32 = n := Nat.mod_eq_of_lt (by omega)
  simp only [BitVec.getElem_rotateLeft, hm32, hn32]
  split
  · rw [dif_neg (by omega)]
    congr 1
    omega
  · rw [dif_pos (by omega)]
    congr 1
    omega

/-- The four words that one QR works on. -/
abbrev Quad := Word × Word × Word × Word

/-- `QR` on a tuple (R100). -/
def qrQuad (v : Quad) : Quad := qr v.1 v.2.1 v.2.2.1 v.2.2.2

/-- Three of QR's twelve operations, an addition, an XOR and a rotation by `n` (R100), with the roles of the
words swapped for the next three. -/
def qrStage (n : Nat) : Quad → Quad
  | (a, b, c, d) => (c, rotl32 (d ^^^ (a + b)) n, a + b, b)

/-- A stage undone: a right rotation, an XOR and a subtraction (R103). -/
def qrUnstage (n : Nat) : Quad → Quad
  | (c, d, a, b) => (a - b, b, c, rotl32 d (32 - n) ^^^ a)

/-- QR is four stages (R100). -/
theorem qrQuad_eq_stages : qrQuad = qrStage 7 ∘ qrStage 8 ∘ qrStage 12 ∘ qrStage 16 := rfl

theorem qrStage_bijective {n : Nat} (h0 : 0 < n) (h32 : n < 32) : Function.Bijective (qrStage n) := by
  refine Function.bijective_iff_has_inverse.2 ⟨qrUnstage n, fun ⟨a, b, c, d⟩ => ?_, fun ⟨c, d, a, b⟩ => ?_⟩
  · simp only [qrStage, qrUnstage, rotl32_rotl32 _ h0 (show 0 < 32 - n by omega) (by omega)]
    simp
  · simp [qrStage, qrUnstage, rotl32_rotl32 _ (show 0 < 32 - n by omega) h0 (by omega)]

theorem qrQuad_bijective : Function.Bijective qrQuad := by
  rw [qrQuad_eq_stages]
  exact (qrStage_bijective (by decide) (by decide)).comp <| (qrStage_bijective (by decide) (by decide)).comp <|
    (qrStage_bijective (by decide) (by decide)).comp (qrStage_bijective (by decide) (by decide))

/-! ### One group of a round (R105) -/

/-- The four indices of a group. -/
def groupIndices : Group → List (Fin 16)
  | (p, q, s, t) => [p, q, s, t]

/-- The four words of a group. -/
def groupWords (y : Vector Word 16) (g : Group) : Quad := (y[g.1], y[g.2.1], y[g.2.2.1], y[g.2.2.2])

/-- The state with the four words of a group replaced. -/
def setGroupWords (y : Vector Word 16) (g : Group) (v : Quad) : Vector Word 16 :=
  (((y.set g.1 v.1).set g.2.1 v.2.1).set g.2.2.1 v.2.2.1).set g.2.2.2 v.2.2.2

/-- A group's step reads the group's words alone and writes them alone. -/
theorem qrAt_eq (y : Vector Word 16) (g : Group) : qrAt y g = setGroupWords y g (qrQuad (groupWords y g)) := rfl

/-- The words of a group are four different ones, so each is what was written to it last. -/
theorem groupWords_setGroupWords (y : Vector Word 16) {g : Group} (v : Quad) (hg : (groupIndices g).Nodup) :
    groupWords (setGroupWords y g v) g = v := by
  obtain ⟨p, q, s, t⟩ := g
  simp only [groupIndices, List.nodup_cons, List.mem_cons, List.not_mem_nil, or_false, not_or, Fin.ext_iff] at hg
  obtain ⟨⟨hpq, hps, hpt⟩, ⟨hqs, hqt⟩, hst, -⟩ := hg
  simp [groupWords, setGroupWords, Ne.symm hpq, Ne.symm hps, Ne.symm hpt, Ne.symm hqs, Ne.symm hqt, Ne.symm hst]

/-- A word after the write depends on its own old value and the words written. -/
theorem setGroupWords_get_congr {x y : Vector Word 16} (g : Group) (v : Quad) {i : Fin 16} (h : x[i] = y[i]) :
    (setGroupWords x g v)[i] = (setGroupWords y g v)[i] := by
  simp only [Fin.getElem_fin] at h
  simp [setGroupWords, Vector.getElem_set, h]

theorem setGroupWords_get_of_not_mem (y : Vector Word 16) {g : Group} (v : Quad) {i : Fin 16}
    (hi : i ∉ groupIndices g) : (setGroupWords y g v)[i] = y[i] := by
  obtain ⟨p, q, s, t⟩ := g
  simp only [groupIndices, List.mem_cons, List.not_mem_nil, or_false, not_or, Fin.ext_iff] at hi
  obtain ⟨hp, hq, hs, ht⟩ := hi
  simp [setGroupWords, Ne.symm hp, Ne.symm hq, Ne.symm hs, Ne.symm ht]

/-- The words of a group and the words outside it make up the state. -/
theorem eq_of_groupWords {x y : Vector Word 16} (g : Group) (hg : groupWords x g = groupWords y g)
    (hout : ∀ i ∉ groupIndices g, x[i] = y[i]) : x = y := by
  obtain ⟨p, q, s, t⟩ := g
  simp only [groupWords, Prod.mk.injEq] at hg
  obtain ⟨hp, hq, hs, ht⟩ := hg
  have hall : ∀ i : Fin 16, x[i] = y[i] := by
    intro i
    by_cases hi : i ∈ groupIndices (p, q, s, t)
    · simp only [groupIndices, List.mem_cons, List.not_mem_nil, or_false] at hi
      rcases hi with rfl | rfl | rfl | rfl <;> assumption
    · exact hout i hi
  exact Vector.ext fun i hi => hall ⟨i, hi⟩

theorem groupWords_congr {x y : Vector Word 16} {g : Group} (h : ∀ i ∈ groupIndices g, x[i] = y[i]) :
    groupWords x g = groupWords y g := by
  simp only [groupIndices, List.forall_mem_cons] at h
  obtain ⟨hp, hq, hs, ht, -⟩ := h
  simp only [groupWords, hp, hq, hs, ht]

/-- The group's words become QR of them. -/
theorem groupWords_qrAt (y : Vector Word 16) {g : Group} (hg : (groupIndices g).Nodup) :
    groupWords (qrAt y g) g = qrQuad (groupWords y g) := by
  rw [qrAt_eq, groupWords_setGroupWords _ _ hg]

theorem qrAt_get_of_not_mem (y : Vector Word 16) {g : Group} {i : Fin 16} (hi : i ∉ groupIndices g) :
    (qrAt y g)[i] = y[i] := by
  rw [qrAt_eq, setGroupWords_get_of_not_mem _ _ hi]

/-- A group's step keeps the words of every disjoint group. -/
theorem groupWords_qrAt_of_disjoint (y : Vector Word 16) {g h : Group}
    (hd : (groupIndices g).Disjoint (groupIndices h)) : groupWords (qrAt y h) g = groupWords y g :=
  groupWords_congr fun _ hi => qrAt_get_of_not_mem y (hd hi)

/-- The steps of disjoint groups commute (R106). -/
theorem qrAt_comm (y : Vector Word 16) {g h : Group} (hg : (groupIndices g).Nodup)
    (hd : (groupIndices g).Disjoint (groupIndices h)) : qrAt (qrAt y g) h = qrAt (qrAt y h) g := by
  refine eq_of_groupWords g ?_ fun i hi => ?_
  · rw [groupWords_qrAt_of_disjoint _ hd, groupWords_qrAt _ hg, groupWords_qrAt _ hg,
      groupWords_qrAt_of_disjoint _ hd]
  · rw [qrAt_get_of_not_mem _ hi, qrAt_eq _ h, qrAt_eq _ h, groupWords_qrAt_of_disjoint _ hd.symm]
    exact setGroupWords_get_congr _ _ (qrAt_get_of_not_mem y hi)

/-- A group's step is a bijection, since QR is one (R103). -/
theorem qrAt_bijective {g : Group} (hg : (groupIndices g).Nodup) : Function.Bijective fun y => qrAt y g := by
  refine ⟨fun x y h => ?_, fun y => ?_⟩
  · refine eq_of_groupWords g (qrQuad_bijective.injective ?_) fun i hi => ?_
    · rw [← groupWords_qrAt x hg, ← groupWords_qrAt y hg]
      exact congrArg (groupWords · g) h
    · rw [← qrAt_get_of_not_mem x hi, ← qrAt_get_of_not_mem y hi]
      exact congrArg (·[i]) h
  · obtain ⟨v, hv⟩ := qrQuad_bijective.surjective (groupWords y g)
    refine ⟨setGroupWords y g v, eq_of_groupWords g ?_ fun i hi => ?_⟩
    · rw [groupWords_qrAt _ hg, groupWords_setGroupWords _ _ hg, hv]
    · rw [qrAt_get_of_not_mem _ hi, setGroupWords_get_of_not_mem _ _ hi]

/-! ### The groups of a round (R105, R106) -/

/-- Every group of the list has four different indices, and no index is in two groups. -/
abbrev DisjointGroups (gs : List Group) : Prop := (gs.flatMap groupIndices).Nodup

theorem DisjointGroups.of_cons {g : Group} {gs : List Group} (h : DisjointGroups (g :: gs)) :
    (groupIndices g).Nodup ∧ DisjointGroups gs ∧ ∀ k ∈ gs, (groupIndices g).Disjoint (groupIndices k) := by
  obtain ⟨hg, hgs, hd⟩ := List.nodup_append'.1 h
  exact ⟨hg, hgs, fun k hk _ hi hi' => hd hi (List.mem_flatMap.2 ⟨k, hk, hi'⟩)⟩

theorem groupsOf_cases (r : Nat) : groupsOf r = columnGroups ∨ groupsOf r = diagonalGroups :=
  ite_eq_or_eq _ _ _

theorem disjointGroups_groupsOf (r : Nat) : DisjointGroups (groupsOf r) := by
  rcases groupsOf_cases r with h | h <;> rw [h] <;> decide

theorem mem_indices_groupsOf (r : Nat) (i : Fin 16) : i ∈ (groupsOf r).flatMap groupIndices := by
  revert i
  rcases groupsOf_cases r with h | h <;> rw [h] <;> decide

theorem groupWords_foldl_qrAt_of_disjoint {gs : List Group} {g : Group} (x : Vector Word 16)
    (hd : ∀ k ∈ gs, (groupIndices g).Disjoint (groupIndices k)) :
    groupWords (gs.foldl qrAt x) g = groupWords x g := by
  induction gs generalizing x with
  | nil => rfl
  | cons k gs ih =>
    rw [List.forall_mem_cons] at hd
    rw [List.foldl_cons, ih _ hd.2, groupWords_qrAt_of_disjoint _ hd.1]

/-- After a run over disjoint groups the words of each group are QR of the same words before it. -/
theorem groupWords_foldl_qrAt {gs : List Group} (hgs : DisjointGroups gs) (x : Vector Word 16) {g : Group}
    (hg : g ∈ gs) : groupWords (gs.foldl qrAt x) g = qrQuad (groupWords x g) := by
  induction gs generalizing x with
  | nil => cases hg
  | cons k gs ih =>
    obtain ⟨hk, hgs, hd⟩ := hgs.of_cons
    rw [List.foldl_cons]
    rcases List.mem_cons.1 hg with rfl | hg
    · rw [groupWords_foldl_qrAt_of_disjoint _ hd, groupWords_qrAt _ hk]
    · rw [ih hgs _ hg, groupWords_qrAt_of_disjoint _ (hd g hg).symm]

theorem foldl_qrAt_bijective {gs : List Group} (hgs : DisjointGroups gs) :
    Function.Bijective fun x => gs.foldl qrAt x := by
  induction gs with
  | nil => exact Function.bijective_id
  | cons g gs ih =>
    obtain ⟨hg, hgs, -⟩ := hgs.of_cons
    exact (ih hgs).comp (qrAt_bijective hg)

/-- Any two of the groups commute: they are the same or disjoint (R106). -/
theorem qrAt_comm_of_mem {gs : List Group} (hgs : DisjointGroups gs) {g h : Group} (hg : g ∈ gs) (hh : h ∈ gs)
    (y : Vector Word 16) : qrAt (qrAt y g) h = qrAt (qrAt y h) g := by
  obtain ⟨hnodup, hpair⟩ := List.nodup_flatMap.1 hgs
  have hsymm : Std.Symm (Function.onFun List.Disjoint groupIndices) := ⟨fun _ _ hd => hd.symm⟩
  by_cases hgh : g = h
  · rw [hgh]
  · exact qrAt_comm y (hnodup g hg) (hpair.forall hg hh hgh)

/-- Settles O31: no index is in two groups and none is in no group, so the groups' steps commute. -/
theorem roundOrderIsFree : Obligations.RoundOrderIsFree := by
  refine ⟨fun r i => ?_, fun r gs x hperm => ?_⟩
  · exact List.count_eq_one_of_mem (disjointGroups_groupsOf r) (mem_indices_groupsOf r i)
  · exact (hperm.symm.foldl_eq' (fun _ hg _ hh => qrAt_comm_of_mem (disjointGroups_groupsOf r) hg hh) x).symm

/-! ### A round lane by lane (R107) -/

/-- Lane `i` of a column round. -/
def columnLane (i : Fin 4) : Group :=
  (⟨i, by omega⟩, ⟨4 + i, by omega⟩, ⟨8 + i, by omega⟩, ⟨12 + i, by omega⟩)

/-- Lane `i` of a diagonal round. -/
def diagonalLane (i : Fin 4) : Group :=
  (⟨i, by omega⟩, ⟨4 + (i + 1) % 4, by omega⟩, ⟨8 + (i + 2) % 4, by omega⟩, ⟨12 + (i + 3) % 4, by omega⟩)

theorem groupWords_columnLane (y : Vector Word 16) (i : Fin 4) :
    groupWords y (columnLane i) = (y[i.val], y[4 + i.val], y[8 + i.val], y[12 + i.val]) := rfl

theorem groupWords_diagonalLane (y : Vector Word 16) (i : Fin 4) : groupWords y (diagonalLane i) =
    (y[i.val], y[4 + (i.val + 1) % 4], y[8 + (i.val + 2) % 4], y[12 + (i.val + 3) % 4]) := rfl

theorem columnLane_mem (i : Fin 4) : columnLane i ∈ groupsOf 0 := by
  revert i
  decide

theorem diagonalLane_mem (i : Fin 4) : diagonalLane i ∈ groupsOf 1 := by
  revert i
  decide

/-- The words of each group of a round become QR of them (R105). -/
theorem groupWords_roundFn (x : Vector Word 16) {r : Nat} {g : Group} (hg : g ∈ groupsOf r) :
    groupWords (roundFn x r) g = qrQuad (groupWords x g) :=
  groupWords_foldl_qrAt (disjointGroups_groupsOf r) x hg

/-- Settles O30: the lanes are the groups of the round. -/
theorem roundLanes : Obligations.RoundLanes := by
  intro x i
  have hcol := groupWords_roundFn x (columnLane_mem i)
  have hdiag := groupWords_roundFn x (diagonalLane_mem i)
  simp only [groupWords_columnLane, groupWords_diagonalLane, qrQuad] at hcol hdiag
  exact ⟨hcol, hdiag⟩

/-! ### Rounds in sequence (R103, R108, R109) -/

theorem roundFn_bijective (r : Nat) : Function.Bijective fun x => roundFn x r :=
  foldl_qrAt_bijective (disjointGroups_groupsOf r)

theorem roundsTo_bijective (n : Nat) : Function.Bijective fun x => roundsTo x n := by
  induction n with
  | zero => exact Function.bijective_id
  | succ n ih => exact (roundFn_bijective n).comp ih

/-- Settles O29: QR is four invertible stages, a round four QRs on disjoint groups, PERMUTE 20 rounds. -/
theorem mixingIsBijective : Obligations.MixingIsBijective :=
  ⟨qrQuad_bijective, roundFn_bijective, roundsTo_bijective Config.rounds⟩

/-- A round's groups go by the parity of its index (R105). -/
theorem roundFn_eq (x : Vector Word 16) (r : Nat) :
    roundFn x r = if r % 2 = 0 then columnGroups.foldl qrAt x else diagonalGroups.foldl qrAt x :=
  apply_ite (fun gs => List.foldl qrAt x gs) _ _ _

/-- Rounds 2k and 2k + 1 are a column round and a diagonal round (R108). -/
theorem roundFn_roundFn_eq_doubleRound (x : Vector Word 16) (k : Nat) :
    roundFn (roundFn x (2 * k)) (2 * k + 1) = doubleRound x := by
  have heven : 2 * k % 2 = 0 := by omega
  have hodd : (2 * k + 1) % 2 = 1 := by omega
  simp [doubleRound, roundFn_eq, heven, hodd]

theorem roundsTo_two_mul (x : Vector Word 16) (k : Nat) : roundsTo x (2 * k) = doubleRound^[k] x := by
  induction k with
  | zero => rfl
  | succ k ih =>
    rw [Function.iterate_succ_apply', ← ih]
    exact roundFn_roundFn_eq_doubleRound (roundsTo x (2 * k)) k

/-- Settles O32: 20 rounds are 10 pairs of a column and a diagonal round. -/
theorem permuteIsTenDoubleRounds : Obligations.PermuteIsTenDoubleRounds := fun x =>
  ⟨rfl, roundFn_roundFn_eq_doubleRound x, roundsTo_two_mul x 10⟩

/-! ### The ROUND micro-step (R104, R109) -/

/-- Settles O23: the micro-step applies `roundFn`, whose groups go by the parity of RND. -/
theorem roundMicroStep : Obligations.RoundMicroStep := by
  intro s hp hr
  rw [engineStep_round hp hr, roundFn_eq]
  simp only [Nat.reduceEqDiff]

/-- Settles O33: a run of ROUND micro-steps from RND = 0 applies rounds 0 to 19. -/
theorem twentyRoundsPermute : Obligations.TwentyRoundsPermute := by
  intro s hp hr
  have hrun := run_rounds s.xfile 20 s hp (by omega) (by rw [hr]; rfl) (by omega)
  simpa [hr, permute, Config.rounds] using hrun

end Sys2Proof.Machine
end

section
/-! PROOFS. The block function: INIT, FEED, the serializer, and BLOCK from its CMD write to BUSY = 0
(41_block_function.md R121 to R129). -/

namespace Sys2Proof.Machine

/-! ### INIT and FEED (R121, R124) -/

/-- Settles O22: the word file that INIT loads is `initState`, read word by word. -/
theorem initMicroStep : Obligations.InitMicroStep := by
  intro s hp
  exact ⟨initState s.key s.nc, fun i => initState_sigma _ _ i i.isLt, fun i => initState_key _ _ i i.isLt,
    fun i => initState_nc _ _ i i.isLt, engineStep_init hp⟩

/-- Settles O24: the word file that FEED makes is `feedForward`, and the window length is `feedLength`. -/
theorem feedMicroStep : Obligations.FeedMicroStep := by
  intro s hp hop
  have hfeeds : s.op = some .block ∨ isStream s.op = true := by
    rcases hop with h | h | h <;> simp [h, isStream]
  exact ⟨feedForward s.xfile s.sfile, fun i => feedForward_get _ _ i i.isLt, engineStep_feed hp hfeeds⟩

/-! ### The serializer (R125) -/

/-- Byte `k` of word `i` is at position `4 * i + k`. -/
theorem ser_word (ks : Vector Word 16) (i : Fin 16) (k : Nat) (hk : k < 4) :
    ser ks (4 * i.val + k) = byteOf ks[i] k := by
  have hword : Fin.ofNat 16 ((4 * i.val + k) / 4) = i := Fin.ext (by simp; omega)
  have hbyte : (4 * i.val + k) % 4 = k := by omega
  simp only [ser, hword, hbyte]

/-- Settles O35: the four positions of a word hold its four bytes, which make the word again. -/
theorem serializerLayout : Obligations.SerializerLayout := by
  intro ks i k
  refine ⟨ser_word ks i k k.isLt, ?_⟩
  have hfirst : ser ks (4 * i.val) = byteOf ks[i] 0 := ser_word ks i 0 (by decide)
  rw [hfirst, ser_word ks i 1 (by decide), ser_word ks i 2 (by decide), ser_word ks i 3 (by decide), le32_byteOf]

/-! ### BLOCK (R128, R129) -/

/-- The state that FEED leaves of a BLOCK accepted in `s` (R126). -/
def blockFed (s : State) : State :=
  { s with
    done := false, err := false, ovf := false, ign := false, ecode := .none, bytes := 0
    sfile := initState s.key s.nc, xfile := permute (initState s.key s.nc), ks := blockWords s.key s.nc
    op := some .block, rnd := 20, off := 0, j := 0, wlen := 64, ec := .none, phase := .emit }

/-- The state of a BLOCK accepted in `s` after `n` bytes, in phase `p`. -/
def blockEmitted (s : State) (n : Nat) (p : Phase) : State :=
  { blockFed s with
    mem := writeMemory s (blockFn s.key s.nc) n, trace := writeTrace s (blockFn s.key s.nc) n
    bytes := BitVec.ofNat 32 n, j := n, phase := p }

/-- From accept, INIT, 20 ROUND and FEED. -/
theorem exec_block_run {s : State} (hp : s.phase = .idle) (hdst : s.dst.toNat + 64 ≤ 2 ^ s.platform.addrW) :
    ∃ t, exec .block s = .next t ∧ engineRun 22 t = .next (blockEmitted s 0 .emit) :=
  ⟨_, blockAccepted s hp hdst, run_block rfl (.inl rfl)⟩

/-- One EMIT of BLOCK stores the next byte of the block. -/
theorem engineStep_blockEmitted {s : State} {n : Nat} (hn : n < 64)
    (hdst : s.dst.toNat + 64 ≤ 2 ^ s.platform.addrW) :
    engineStep (blockEmitted s n .emit) =
      .next (blockEmitted s (n + 1) (if n + 1 = 64 then .wipe else .emit)) := by
  have haddr : blockAddr (blockEmitted s n .emit) < 2 ^ s.platform.addrW := by
    show s.dst.toNat + n < _
    omega
  have hm : MicroStep (blockEmitted s n .emit) _ := .emitBlock rfl hn (Nat.le_refl 64) rfl haddr
  have hbytes : (blockEmitted s n .emit).bytes + 1 = BitVec.ofNat 32 (n + 1) := (BitVec.ofNat_add n 1).symm
  rw [hm.engineStep_eq, hbytes]
  rfl

/-- The EMIT micro-steps of BLOCK, up to the last byte, which goes on to WIPE. -/
theorem engineRun_blockEmitted {s : State} {n : Nat} (hn : n ≤ 64)
    (hdst : s.dst.toNat + 64 ≤ 2 ^ s.platform.addrW) :
    engineRun n (blockEmitted s 0 .emit) = .next (blockEmitted s n (if n = 64 then .wipe else .emit)) := by
  induction n with
  | zero => rfl
  | succ n ih =>
    rw [engineRun_snoc (ih (by omega)), if_neg (by omega)]
    exact engineStep_blockEmitted hn hdst

/-- BLOCK reaches WIPE by 22 micro-steps to the keystream words and one for each byte. -/
theorem exec_block_endsAfter {s : State} (hp : s.phase = .idle) (hdst : s.dst.toNat + 64 ≤ 2 ^ s.platform.addrW) :
    ∃ t, exec .block s = .next t ∧ EndsAfter 87 t (wiped (blockEmitted s 64 .wipe)) := by
  obtain ⟨t, hexec, hfed⟩ := exec_block_run hp hdst
  exact ⟨t, hexec, endsAfter_of_wipe (engineRun_trans hfed (engineRun_blockEmitted (Nat.le_refl 64) hdst)) rfl⟩

theorem inStream_blockEmitted (s : State) (n : Nat) (p : Phase) : InStream s .block (blockEmitted s n p) :=
  ⟨rfl, rfl, rfl, rfl, rfl, rfl, rfl, rfl, rfl, rfl, rfl, rfl, rfl⟩

/-- Settles O11: BLOCK emits its 64 bytes and WIPE leaves them, with the memory and the trace they made. -/
theorem blockWholeCommand : Obligations.BlockWholeCommand := by
  intro s hp hdst
  obtain ⟨t, hexec, hends⟩ := exec_block_endsAfter hp hdst
  have hin := inStream_blockEmitted s 64 .wipe
  have hmem (a : Nat) := memRead_writeMemory s (blockFn s.key s.nc) 64 a
  refine ⟨t, _, hexec, hends, commandEnd_wiped hin fun _ _ => rfl, rfl, rfl, wiped_status_ok rfl hin.report,
    fun j hj => ?_, fun a ha => ?_, rfl⟩
  · refine (hmem _).trans ?_
    rw [if_pos (by omega), Nat.add_sub_cancel_left]
  · exact (hmem a).trans (if_neg (by omega))

end Sys2Proof.Machine
end

section
/-! PROOFS. The counter: `CTR_INC` as arithmetic, the INC micro-step, CTRINC from its CMD write to BUSY = 0,
and how far a stream moves the counter (42_counter.md R140 to R145). -/

namespace Sys2Proof.Machine

/-! ### `CTR_INC` on any sub-range (R140) -/

/-- The loop writes its own positions alone. -/
theorem ctrIncLoop_get_outside {n p : Nat} (c : Bool) (nb : Vector Byte 16) (hp : p + n ≤ 16) {k : Fin 16}
    (hk : k.val < p ∨ p + n ≤ k.val) : (ctrIncLoop n p c nb).1[k] = nb[k] := by
  induction n generalizing p c nb with
  | zero => rfl
  | succ n ih =>
    rw [ctrIncLoop, ih _ _ (by omega) (by omega)]
    refine Vector.getElem_set_ne _ _ ?_
    rw [Fin.val_ofNat, Nat.mod_eq_of_lt (by omega)]
    omega

/-- The number in a sub-range depends on the bytes of that sub-range alone. -/
theorem leValue_congr {a b : Vector Byte 16} {off n : Nat}
    (h : ∀ k, off ≤ k → k < off + n → a[Fin.ofNat 16 k] = b[Fin.ofNat 16 k]) :
    leValue a off n = leValue b off n := by
  induction n with
  | zero => rfl
  | succ n ih =>
    rw [leValue, leValue, ih fun k h1 h2 => h k h1 (by omega), h (off + n) (by omega) (by omega)]

/-- The same number, split at its lowest byte: the order in which the loop goes. -/
theorem leValue_succ_low (nb : Vector Byte 16) (off n : Nat) :
    leValue nb off (n + 1) = nb[Fin.ofNat 16 off].toNat + 256 * leValue nb (off + 1) n := by
  induction n with
  | zero => simp [leValue]
  | succ n ih =>
    have hpos : off + 1 + n = off + (n + 1) := by omega
    rw [leValue, ih, leValue]
    simp only [hpos, Nat.pow_succ]
    ring

/-- One byte of the loop: the byte stored and the carry passed on make the sum. -/
theorem byte_add_carry (b : Byte) (c : Bool) :
    b.toNat + c.toNat =
      (BitVec.ofNat 8 (b.toNat + c.toNat)).toNat + 256 * (decide (256 ≤ b.toNat + c.toNat)).toNat := by
  have hb := b.isLt
  have hc := c.toNat_le
  rw [BitVec.toNat_ofNat]
  by_cases h : 256 ≤ b.toNat + c.toNat
  · rw [decide_eq_true h, Bool.toNat_true]
    omega
  · rw [decide_eq_false h, Bool.toNat_false]
    omega

/-- The loop adds the carry that goes in, and what does not fit is the carry that comes out. -/
theorem leValue_ctrIncLoop {n p : Nat} (c : Bool) (nb : Vector Byte 16) (hp : p + n ≤ 16) :
    leValue (ctrIncLoop n p c nb).1 p n + (ctrIncLoop n p c nb).2.toNat * 256 ^ n =
      leValue nb p n + c.toNat := by
  induction n generalizing p c nb with
  | zero => simp [leValue, ctrIncLoop]
  | succ n ih =>
    have hcarry := byte_add_carry nb[Fin.ofNat 16 p] c
    rw [ctrIncLoop]
    generalize ht : nb[Fin.ofNat 16 p].toNat + c.toNat = t at hcarry ⊢
    have hrest := ih (decide (256 ≤ t)) (nb.set (Fin.ofNat 16 p) (BitVec.ofNat 8 t)) (by omega : p + 1 + n ≤ 16)
    have hhigh : leValue (nb.set (Fin.ofNat 16 p) (BitVec.ofNat 8 t)) (p + 1) n = leValue nb (p + 1) n :=
      leValue_congr fun k _ _ => Vector.getElem_set_ne _ _ (by simp; omega)
    rw [leValue_succ_low, leValue_succ_low, ctrIncLoop_get_outside _ _ (by omega) (.inl (by simp; omega)),
      Fin.getElem_fin, Vector.getElem_set_self, Nat.pow_succ]
    rw [hhigh] at hrest
    linarith

/-- Settles O36: on a sub-range the loop with carry 1 going in, and on NC `incNc_eq`. -/
theorem counterIncrement : Obligations.CounterIncrement := by
  refine ⟨fun nb off len hle => ⟨leValue_ctrIncLoop true nb hle, fun k hk => ctrIncLoop_get_outside true nb hle hk⟩,
    fun nc => ?_⟩
  have hnonce (i : Nat) (hi : i < 4) (h0 : 0 ≠ i) : (incNc nc).1[i] = nc[i] := by
    rw [incNc_fst]
    exact Vector.getElem_set_ne _ _ h0
  exact ⟨incNc_fst nc, incNc_snd nc, hnonce 1 (by decide) (by decide), hnonce 2 (by decide) (by decide),
    hnonce 3 (by decide) (by decide)⟩

/-! ### INC and CTRINC (R143, R145) -/

/-- The INC micro-step in words of NC[0]. -/
theorem engineStep_inc_eq {s : State} (hp : s.phase = .inc) (hop : s.op = some .ctrinc ∨ isStream s.op = true) :
    engineStep s = .next { s with
      nc := s.nc.set 0 (s.nc[0] + 1), off := s.off + BitVec.ofNat 32 s.wlen
      ec := if s.nc[0] = 0xFFFFFFFF then .ctrOverflow else s.ec
      phase := if s.nc[0] = 0xFFFFFFFF then .wipe else incAfter s } := by
  rw [engineStep_inc hp hop, incNc_eq]
  by_cases hc : s.nc[0] = 0xFFFFFFFF
  · simp only [hc, decide_true, if_true]
  · simp only [hc, decide_false, Bool.false_eq_true, if_false]

/-- Settles O26: INC's equation, with the overflow decided and the next phase read off OP. -/
theorem incMicroStep : Obligations.IncMicroStep := by
  intro s hp hop
  have hop' : s.op = some .ctrinc ∨ isStream s.op = true := by
    rcases hop with h | h | h <;> simp [h, isStream]
  rw [engineStep_inc_eq hp hop']
  refine ⟨_, rfl, fun hc => ?_, fun hc hctr => ?_, fun hc hctr => ?_⟩
  · simp only [hc, if_true]
  · simp only [hc, if_false, incAfter, hctr, isStream, Bool.false_eq_true, false_and]
  · simp only [hc, if_false, incAfter, hop'.resolve_left hctr, true_and]

/-- The state that INC leaves of a CTRINC accepted in `s`. -/
def ctrincCounted (s : State) : State :=
  { s with
    nc := s.nc.set 0 (s.nc[0] + 1)
    done := false, err := false, ovf := false, ign := false, ecode := .none, bytes := 0
    op := some .ctrinc, rnd := 0, off := 0, j := 0, wlen := 0
    ec := if s.nc[0] = 0xFFFFFFFF then .ctrOverflow else .none, phase := .wipe }

/-- CTRINC is accepted and runs INC, which goes on to WIPE. -/
theorem exec_ctrinc_run {s : State} (hp : s.phase = .idle) :
    ∃ t, exec .ctrinc s = .next t ∧ engineRun 1 t = .next (ctrincCounted s) := by
  refine ⟨_, ctrincAccepted s hp, ?_⟩
  rw [engineRun_succ (engineStep_inc_eq rfl (.inl rfl))]
  simp [engineRun, ctrincCounted, incAfter, isStream]

theorem inStream_ctrincCounted (s : State) : InStream s .ctrinc (ctrincCounted s) :=
  ⟨rfl, rfl, rfl, rfl, rfl, rfl, rfl, rfl, rfl, rfl, rfl, rfl, rfl⟩

theorem statusWord_wiped_ctrincCounted (s : State) :
    statusWord (wiped (ctrincCounted s)) = if s.nc[0] = 0xFFFFFFFF then 0x0000030C else 0x00000002 := by
  have hreport := (inStream_ctrincCounted s).report
  split
  · next hc => exact wiped_status_overflow (if_pos hc) hreport
  · next hc => exact wiped_status_ok (if_neg hc) hreport

/-- Settles O12: INC counts, and WIPE ends the command and reports. -/
theorem ctrincWholeCommand : Obligations.CtrincWholeCommand := by
  intro s hp
  obtain ⟨t, hexec, hinc⟩ := exec_ctrinc_run hp
  have hnonce (k : Fin 4) (hk : k ≠ 0) : (ctrincCounted s).nc[k] = s.nc[k] :=
    Vector.getElem_set_ne (by decide) k.isLt fun h => hk (Fin.ext h.symm)
  exact ⟨t, _, hexec, endsAfter_of_wipe hinc rfl, commandEnd_wiped (inStream_ctrincCounted s) hnonce, rfl, rfl, rfl,
    rfl, statusWord_wiped_ctrincCounted s⟩

/-! ### How far a stream moves the counter (R144) -/

/-- NC and DONE at the end of a stream whose EMIT micro-steps make `M` and `T`. -/
theorem completes_of_emits {s : State} {i : Instr} {M : Nat → Memory} {T : Nat → List Event}
    (hi : isStream (some i) = true) (hp : s.phase = .idle) (hok : rangeOk i s = true) (hE : Emits s i M T)
    (hM : M 0 = s.mem) (hT : T 0 = s.trace) :
    ∃ u, Completes i s u ∧ u.nc = ncAt s.nc (windows (streamBytes s)) ∧ u.done = !streamOverflows s := by
  obtain ⟨t, u, hexec, hends, -, -, -, -, hnc, -, hdone⟩ := stream_whole hi hp hok hE hM hT
  exact ⟨u, ⟨t, _, hexec, hends⟩, hnc, hdone⟩

/-- NC and DONE at the end of any stream. -/
theorem completes_stream {s : State} {i : Instr} (hi : i = .xor ∨ i = .kstream) (hp : s.phase = .idle)
    (hok : rangeOk i s = true) :
    ∃ u, Completes i s u ∧ u.nc = ncAt s.nc (windows (streamBytes s)) ∧ u.done = !streamOverflows s := by
  rcases hi with rfl | rfl
  · exact completes_of_emits rfl hp hok (emits_xor hok) rfl rfl
  · exact completes_of_emits rfl hp hok (emits_kstream hok) rfl rfl

/-- A stream that does not overflow writes all of LEN, and its windows fit above NC[0]. -/
theorem streamBytes_of_not_overflows {s : State} (h : streamOverflows s = false) :
    streamBytes s = s.len.toNat ∧ s.nc[0].toNat + windows s.len.toNat < 2 ^ 32 := by
  rw [streamOverflows, decide_eq_false_iff_not] at h
  unfold windows at h ⊢
  unfold streamBytes
  omega

/-- Settles O21: DONE means no overflow, so the counter moved by the windows of LEN and did not wrap. -/
theorem counterStrictlyIncreases : Obligations.CounterStrictlyIncreases := by
  intro s u i hi hp hok hu hdone
  obtain ⟨v, hv, hnc, hvdone⟩ := completes_stream hi hp hok
  obtain rfl := completes_unique hu hv
  have hov : streamOverflows s = false := by simpa [hdone] using hvdone
  obtain ⟨hbytes, hfits⟩ := streamBytes_of_not_overflows hov
  rw [hnc, hbytes, ncAt_toNat hfits]

end Sys2Proof.Machine
end

section
/-! PROOFS. The stream's own micro-steps, EMIT and WIPE, and XOR and KSTREAM from their CMD write to BUSY = 0:
the closed form, a stream split in two, and a stream that undoes another (43_stream_xor.md R163 to R176). -/

namespace Sys2Proof.Machine

/-! ### EMIT and WIPE (R163, R170) -/

/-- Settles O25: the three kinds of EMIT, whose addresses are `blockAddr`, `inputAddr` and `outputAddr`. -/
theorem emitMicroStep : Obligations.EmitMicroStep := by
  intro s hp hj hw
  refine ⟨fun hop ho => ?_, fun hop hi ho => ⟨_, rfl, ?_⟩, fun hop ho => ?_⟩
  · exact (MicroStep.emitBlock hp hj hw hop ho).engineStep_eq
  · exact (MicroStep.emitXor hp hj hw hop hi ho).engineStep_eq
  · exact (MicroStep.emitKstream hp hj hw hop ho).engineStep_eq

/-- Settles O27: WIPE leaves `wiped`, whose report depends on EC. -/
theorem wipeMicroStep : Obligations.WipeMicroStep := by
  intro s hp
  refine ⟨wiped s, engineStep_wipe_eq hp, rfl, fun i => ?_, fun hec => ?_, fun hec => ?_, rfl⟩
  · exact ⟨replicate_zero_get i, replicate_zero_get i, replicate_zero_get i⟩
  · exact ⟨if_pos hec, if_pos hec, if_pos hec, if_neg (by simp [hec])⟩
  · exact ⟨if_neg hec, if_neg hec, if_neg hec, fun h => if_pos h, fun h => if_neg h⟩

/-! ### The end of a stream -/

/-- What a stream accepted in `s` that has ended in `u` leaves, where `M n` is memory after `n` bytes. -/
structure StreamEnd (s : State) (M : Nat → Memory) (u : State) : Prop where
  command : CommandEnd s u
  mem : u.mem = M (streamBytes s)
  bytes : u.bytes.toNat = streamBytes s
  nc : u.nc = ncAt s.nc (windows (streamBytes s))
  status : statusWord u = streamStatus s
  done : u.done = !streamOverflows s

/-- `stream_whole` without the count of micro-steps and the trace. -/
theorem completes_streamEnd {s : State} {i : Instr} {M : Nat → Memory} {T : Nat → List Event}
    (hi : isStream (some i) = true) (hp : s.phase = .idle) (hok : rangeOk i s = true) (hE : Emits s i M T)
    (hM : M 0 = s.mem) (hT : T 0 = s.trace) : ∃ u, Completes i s u ∧ StreamEnd s M u := by
  obtain ⟨t, u, hexec, hends, hcommand, hmem, -, hbytes, hnc, hstatus, hdone⟩ := stream_whole hi hp hok hE hM hT
  exact ⟨u, ⟨t, _, hexec, hends⟩, hcommand, hmem, hbytes, hnc, hstatus, hdone⟩

theorem completes_xor {s : State} (hp : s.phase = .idle)
    (hsrc : s.src.toNat + s.len.toNat ≤ 2 ^ s.platform.addrW)
    (hdst : s.dst.toNat + s.len.toNat ≤ 2 ^ s.platform.addrW) :
    ∃ u, Completes .xor s u ∧ StreamEnd s (xorMemory s) u :=
  have hok := rangeOk_xor hsrc hdst
  completes_streamEnd rfl hp hok (emits_xor hok) rfl rfl

theorem completes_kstream {s : State} (hp : s.phase = .idle)
    (hdst : s.dst.toNat + s.len.toNat ≤ 2 ^ s.platform.addrW) :
    ∃ u, Completes .kstream s u ∧ StreamEnd s (writeMemory s (keystream s)) u :=
  have hok := rangeOk_kstream hdst
  completes_streamEnd rfl hp hok (emits_kstream hok) rfl rfl

/-- The overflow report in STATUS (60_exceptions.md R203). -/
theorem overflow_report_iff {s u : State} (h : statusWord u = streamStatus s) :
    u.err = true ∧ u.ovf = true ∧ u.ecode = .ctrOverflow ↔ streamOverflows s = true := by
  obtain ⟨-, -, herr, hovf, -, hecode, -⟩ := statusLayout u
  rw [h, streamStatus] at herr hovf hecode
  cases ho : streamOverflows s with
  | false =>
    rw [← herr, ho]
    simp
  | true =>
    rw [ho] at herr hovf hecode
    have hcode : u.ecode = .ctrOverflow := by
      cases hc : u.ecode <;> simp [hc, ErrorCode.code] at hecode ⊢
    exact ⟨fun _ => rfl, fun _ => ⟨herr.symm, hovf.symm, hcode⟩⟩

theorem StreamEnd.overflow_iff {s u : State} {M : Nat → Memory} (h : StreamEnd s M u) :
    u.err = true ∧ u.ovf = true ∧ u.ecode = .ctrOverflow ↔ 2 ^ 32 - 1 < s.nc[0].toNat + windows s.len.toNat :=
  (overflow_report_iff h.status).trans decide_eq_true_iff

theorem StreamEnd.done_iff {s u : State} {M : Nat → Memory} (h : StreamEnd s M u) :
    u.done = true ↔ s.nc[0].toNat + windows s.len.toNat ≤ 2 ^ 32 - 1 := by
  rw [h.done, Bool.not_eq_true', streamOverflows, decide_eq_false_iff_not, Nat.not_lt]

/-- NC[0] counts the windows begun, mod 2^32 (R172). -/
theorem StreamEnd.counter {s u : State} {M : Nat → Memory} (h : StreamEnd s M u) :
    u.nc[0].toNat = (s.nc[0].toNat + windows u.bytes.toNat) % 2 ^ 32 := by
  rw [h.bytes, h.nc, ncAt_get_zero, BitVec.toNat_add, BitVec.toNat_ofNat, Nat.add_mod_mod]

/-- A stream that ends with DONE has processed all of LEN. -/
theorem StreamEnd.bytes_of_done {s u : State} {M : Nat → Memory} (h : StreamEnd s M u) (hd : u.done = true) :
    u.bytes = s.len := by
  have hov : streamOverflows s = false := by simpa [hd] using h.done
  exact BitVec.eq_of_toNat_eq (h.bytes.trans (streamBytes_of_not_overflows hov).1)

/-! ### What was written where -/

theorem memRead_writeMemory_inside (s : State) (out : Nat → Byte) {n o : Nat} (h : o < n) :
    memRead (writeMemory s out n) (s.dst.toNat + o) = out o := by
  rw [memRead_writeMemory, if_pos (by omega), Nat.add_sub_cancel_left]

theorem memRead_writeMemory_outside (s : State) (out : Nat → Byte) {n a : Nat}
    (h : a < s.dst.toNat ∨ s.dst.toNat + n ≤ a) : memRead (writeMemory s out n) a = memRead s.mem a := by
  rw [memRead_writeMemory, if_neg (by omega)]

theorem writeMemory_congr (s : State) {out out' : Nat → Byte} {n : Nat} (h : ∀ o < n, out o = out' o) :
    writeMemory s out n = writeMemory s out' n := by
  induction n with
  | zero => rfl
  | succ n ih => rw [writeMemory, writeMemory, ih fun o ho => h o (by omega), h n (by omega)]

/-- Settles O16: KSTREAM is a stream whose EMIT micro-steps write the keystream and read nothing. -/
theorem kstreamWholeCommand : Obligations.KstreamWholeCommand := by
  intro s hp hdst
  have hok := rangeOk_kstream hdst
  obtain ⟨t, u, hexec, hends, hend, hmem, htrace, hbytes, hnc, hstatus, -⟩ :=
    stream_whole rfl hp hok (emits_kstream hok) rfl rfl
  exact ⟨t, u, hexec, hends, hend, fun o ho => hmem ▸ memRead_writeMemory_inside s (keystream s) ho,
    fun a ha => hmem ▸ memRead_writeMemory_outside s (keystream s) ha, htrace, hbytes, hnc, hstatus⟩

/-- Settles O17: accept goes to WIPE, the one micro-step, with no error. -/
theorem zeroLengthStream : Obligations.ZeroLengthStream := by
  intro s i hi hp hlen hdst
  have hok : rangeOk i s = true := by
    rcases hi with rfl | ⟨rfl, hsrc⟩
    · exact rangeOk_kstream (by simpa [hlen] using hdst)
    · exact rangeOk_xor (by simpa [hlen] using hsrc) (by simpa [hlen] using hdst)
  have hfirst : firstPhase i s = .wipe := by
    rcases hi with rfl | ⟨rfl, -⟩ <;> exact if_pos hlen
  exact ⟨_, _, exec_accepted hp hok, hfirst, endsAfter_of_wipe rfl hfirst, rfl, rfl, rfl, rfl, rfl,
    wiped_status_ok rfl ⟨rfl, rfl, rfl, rfl, rfl⟩⟩

/-! ### The closed form (R172) -/

/-- The input byte at offset `o`: KSTREAM takes it as 0 (R165). -/
def streamInput (s : State) (i : Instr) (o : Nat) : Byte :=
  if i = .xor then memRead s.mem (s.src.toNat + o) else 0

/-- The output byte at offset `o`, from the input as it was at accept. -/
def streamOutput (s : State) (i : Instr) (o : Nat) : Byte := streamInput s i o ^^^ keystream s o

theorem streamOutput_of_input_zero {s : State} {i : Instr} {o : Nat} (h : streamInput s i o = 0) :
    streamOutput s i o = keystream s o := by
  rw [streamOutput, h]
  exact BitVec.zero_xor

/-- Where the output does not run into the input, every input byte is read as it was at accept
(20_memory.md R78). -/
theorem xorMemory_eq_writeMemory {s : State} {n : Nat} (hrun : ¬OutputRunsIntoInput s) (hn : n ≤ s.len.toNat) :
    xorMemory s n = writeMemory s (streamOutput s .xor) n := by
  induction n with
  | zero => rfl
  | succ n ih =>
    have hread : memRead (xorMemory s n) (s.src.toNat + n) = streamInput s .xor n :=
      memRead_xorMemory_outside s n _ (by unfold OutputRunsIntoInput at hrun; omega)
    rw [xorMemory, hread, ih (by omega)]
    rfl

theorem streamBytes_le_len (s : State) : streamBytes s ≤ s.len.toNat := Nat.min_le_left _ _

/-- XOR that does not run into its input, and KSTREAM, write their output bytes in order. -/
theorem completes_closed {s : State} {i : Instr} (hp : s.phase = .idle)
    (hdst : s.dst.toNat + s.len.toNat ≤ 2 ^ s.platform.addrW)
    (hi : i = .kstream ∨
      i = .xor ∧ s.src.toNat + s.len.toNat ≤ 2 ^ s.platform.addrW ∧ ¬OutputRunsIntoInput s) :
    ∃ u, Completes i s u ∧ StreamEnd s (writeMemory s (streamOutput s i)) u := by
  rcases hi with rfl | ⟨rfl, hsrc, hrun⟩
  · obtain ⟨u, hu, hend⟩ := completes_kstream hp hdst
    have hzero (o : Nat) : keystream s o = streamOutput s .kstream o := (streamOutput_of_input_zero rfl).symm
    exact ⟨u, hu, { hend with mem := hend.mem.trans (writeMemory_congr s fun o _ => hzero o) }⟩
  · obtain ⟨u, hu, hend⟩ := completes_xor hp hsrc hdst
    exact ⟨u, hu, { hend with mem := hend.mem.trans (xorMemory_eq_writeMemory hrun (streamBytes_le_len s)) }⟩

theorem StreamEnd.output {s u : State} {out : Nat → Byte} (h : StreamEnd s (writeMemory s out) u) {o : Nat}
    (ho : o < streamBytes s) : memRead u.mem (s.dst.toNat + o) = out o := by
  rw [h.mem, memRead_writeMemory_inside s out ho]

/-- Settles O14: the output bytes of `completes_closed`, with the counter and the report of any stream. -/
theorem streamClosedForm : Obligations.StreamClosedForm := by
  intro s i hp hdst hi
  obtain ⟨u, hu, hend⟩ := completes_closed hp hdst hi
  refine ⟨u, hu, hend.bytes, fun o ho => hend.output (hend.bytes ▸ ho), fun a ha => ?_, hend.counter,
    hend.overflow_iff, hend.done_iff⟩
  rw [hend.bytes] at ha
  rw [hend.mem, memRead_writeMemory_outside s _ ha]

/-- Settles O18: over zeros both commands write the keystream, so their memories are equal data. -/
theorem kstreamIsXorOfZeros : Obligations.KstreamIsXorOfZeros := by
  intro s hp hsrc hdst hrun hzero
  obtain ⟨u, hu, huend⟩ := completes_kstream hp hdst
  obtain ⟨v, hv, hvend⟩ := completes_closed hp hdst (.inr ⟨rfl, hsrc, hrun⟩)
  have hmem : u.mem = v.mem := by
    rw [huend.mem, hvend.mem]
    refine writeMemory_congr s fun o ho => (streamOutput_of_input_zero ?_).symm
    exact hzero o (Nat.lt_of_lt_of_le ho (streamBytes_le_len s))
  exact ⟨u, v, hu, hv, huend.nc.trans hvend.nc.symm, BitVec.eq_of_toNat_eq (huend.bytes.trans hvend.bytes.symm),
    fun a => congrArg (memRead · a) hmem⟩

/-! ### XOR of an XOR's output (R174) -/

/-- The second XOR of R174: from the state `u` after the first, with its counter, from its output to `d`. -/
def undoing (s u : State) (d : Word) : State := { u with nc := s.nc, src := s.dst, dst := d }

theorem keystream_undoing {s u : State} (d : Word) (h : CommandEnd s u) :
    keystream (undoing s u d) = keystream s := by
  funext o
  show blockFn u.key _ _ = _
  rw [h.key]
  rfl

theorem streamBytes_undoing {s u : State} (d : Word) (h : CommandEnd s u) :
    streamBytes (undoing s u d) = streamBytes s := by
  show min u.len.toNat _ = _
  rw [h.len]
  rfl

/-- Settles O20: the second XOR reads the first one's output and XORs the same keystream. -/
theorem xorTwiceGivesInputBack : Obligations.XorTwiceGivesInputBack := by
  intro s d hp hsrc hdst hd hrun hrun'
  obtain ⟨u, hu, hend⟩ := completes_closed hp hdst (.inr ⟨rfl, hsrc, hrun⟩)
  obtain ⟨hphase, -⟩ := hend.command.sequencer
  have hlen := hend.command.len
  have hplat := hend.command.platform
  obtain ⟨v, hv, hend'⟩ := completes_closed (s := undoing s u d) (i := .xor) hphase
    (by simpa [undoing, hlen, hplat] using hd)
    (.inr ⟨rfl, by simpa [undoing, hlen, hplat] using hdst, by simpa [undoing, hlen] using hrun'⟩)
  refine ⟨u, v, hu, hv, fun o ho => ?_, hend.bytes_of_done, hend.done_iff⟩
  rw [hend.bytes] at ho
  calc memRead v.mem (d.toNat + o)
      = streamOutput (undoing s u d) .xor o := hend'.output (by rwa [streamBytes_undoing d hend.command])
    _ = memRead u.mem (s.dst.toNat + o) ^^^ keystream s o := by
      rw [streamOutput, keystream_undoing d hend.command]; rfl
    _ = memRead s.mem (s.src.toNat + o) ^^^ keystream s o ^^^ keystream s o := by rw [hend.output ho]; rfl
    _ = memRead s.mem (s.src.toNat + o) := by rw [BitVec.xor_assoc, BitVec.xor_self, BitVec.xor_zero]

/-! ### A stream split at a window's edge (R173) -/

theorem windows_add (k n : Nat) : windows (64 * k + n) = k + windows n := by
  unfold windows
  omega

theorem ncAt_ncAt (nc : Vector Word 4) (k m : Nat) : ncAt (ncAt nc k) m = ncAt nc (k + m) := by
  rw [ncAt, ncAt_get_zero, BitVec.add_assoc, ← BitVec.ofNat_add, ncAt, Vector.set_set]
  rfl

/-- Byte operations go on from a state `t` that stands `d` byte operations into the XOR of `s`. -/
theorem xorMemory_shift {s t : State} {d n : Nat} (hmem : t.mem = xorMemory s d)
    (hsrc : ∀ o < n, t.src.toNat + o = s.src.toNat + (d + o))
    (hdst : ∀ o < n, t.dst.toNat + o = s.dst.toNat + (d + o))
    (hks : ∀ o, keystream t o = keystream s (d + o)) : xorMemory t n = xorMemory s (d + n) := by
  induction n with
  | zero => exact hmem
  | succ n ih =>
    rw [xorMemory, ih (fun o ho => hsrc o (by omega)) (fun o ho => hdst o (by omega)), hsrc n (by omega),
      hdst n (by omega), hks]
    rfl

/-- `s` with LEN cut to `k` windows. -/
def firstWindows (s : State) (k : Nat) : State := { s with len := BitVec.ofNat 32 (64 * k) }

/-- `t` is idle, with `k` windows of the XOR of `s` behind it and SRC, DST and LEN set for the rest. -/
structure Resumes (s : State) (k : Nat) (t : State) : Prop where
  phase : t.phase = .idle
  key : t.key = s.key
  platform : t.platform = s.platform
  nc : t.nc = ncAt s.nc k
  mem : t.mem = xorMemory s (64 * k)
  src : t.src = s.src + BitVec.ofNat 32 (64 * k)
  dst : t.dst = s.dst + BitVec.ofNat 32 (64 * k)
  len : t.len = s.len - BitVec.ofNat 32 (64 * k)

section
variable {s t : State} {k : Nat}

theorem firstWindows_len (hk : 64 * k ≤ s.len.toNat) : (firstWindows s k).len.toNat = 64 * k := by
  have hlt := s.len.isLt
  exact (BitVec.toNat_ofNat _ _).trans (Nat.mod_eq_of_lt (by omega))

/-- `k` windows that fit below the counter's end do not overflow it. -/
theorem firstWindows_not_overflows (hk : 64 * k ≤ s.len.toNat) (hc : s.nc[0].toNat + k ≤ 2 ^ 32 - 1) :
    streamOverflows (firstWindows s k) = false := by
  have hw : windows (64 * k) = k := windows_add k 0
  rw [streamOverflows, decide_eq_false_iff_not, firstWindows_len hk, hw]
  exact Nat.not_lt.2 hc

theorem xorMemory_firstWindows (s : State) (k n : Nat) : xorMemory (firstWindows s k) n = xorMemory s n := by
  have h := xorMemory_shift (s := s) (t := firstWindows s k) (d := 0) (n := n) rfl
    (fun o _ => by rw [Nat.zero_add]; rfl) (fun o _ => by rw [Nat.zero_add]; rfl)
    (fun o => by rw [Nat.zero_add]; rfl)
  rwa [Nat.zero_add] at h

theorem Resumes.len_toNat (h : Resumes s k t) (hk : 64 * k ≤ s.len.toNat) :
    64 * k + t.len.toNat = s.len.toNat := by
  have hlt := s.len.isLt
  rw [h.len, BitVec.toNat_sub, BitVec.toNat_ofNat]
  omega

theorem Resumes.src_toNat (h : Resumes s k t) : t.src.toNat = (s.src.toNat + 64 * k) % 2 ^ 32 := by
  rw [h.src, BitVec.toNat_add, BitVec.toNat_ofNat, Nat.add_mod_mod]

theorem Resumes.dst_toNat (h : Resumes s k t) : t.dst.toNat = (s.dst.toNat + 64 * k) % 2 ^ 32 := by
  rw [h.dst, BitVec.toNat_add, BitVec.toNat_ofNat, Nat.add_mod_mod]

theorem Resumes.counter (h : Resumes s k t) (hc : s.nc[0].toNat + k ≤ 2 ^ 32 - 1) :
    t.nc[0].toNat = s.nc[0].toNat + k := by
  rw [h.nc]
  exact ncAt_toNat (by omega)

theorem Resumes.keystream_eq (h : Resumes s k t) (o : Nat) :
    keystream t o = keystream s (64 * k + o) := by
  have hwindow : (64 * k + o) / 64 = k + o / 64 := by omega
  have hbyte : (64 * k + o) % 64 = o % 64 := by omega
  rw [keystream, keystream, h.key, h.nc, ncAt_ncAt, hwindow, hbyte]

/-- The bytes still to write. -/
theorem Resumes.streamBytes_eq (h : Resumes s k t) (hk : 64 * k ≤ s.len.toNat)
    (hc : s.nc[0].toNat + k ≤ 2 ^ 32 - 1) : 64 * k + streamBytes t = streamBytes s := by
  have hlen := h.len_toNat hk
  rw [streamBytes, streamBytes, h.counter hc]
  omega

/-- The rest overflows exactly where the whole does. -/
theorem Resumes.streamStatus_eq (h : Resumes s k t) (hk : 64 * k ≤ s.len.toNat)
    (hc : s.nc[0].toNat + k ≤ 2 ^ 32 - 1) : streamStatus t = streamStatus s := by
  rw [streamStatus, streamStatus, streamOverflows, streamOverflows, h.counter hc,
    ← h.len_toNat hk, windows_add, Nat.add_assoc]

/-- The rest's byte operations are those of the whole. SRC or DST wraps to 0 only where no byte is left. -/
theorem Resumes.xorMemory_eq (h : Resumes s k t) (hw : s.platform.wellFormed = true)
    (hsrc : s.src.toNat + s.len.toNat ≤ 2 ^ s.platform.addrW)
    (hdst : s.dst.toNat + s.len.toNat ≤ 2 ^ s.platform.addrW) (hk : 64 * k ≤ s.len.toNat) {n : Nat}
    (hn : n ≤ t.len.toNat) : xorMemory t n = xorMemory s (64 * k + n) := by
  have hlen := h.len_toNat hk
  have haddr : 2 ^ s.platform.addrW ≤ 2 ^ 32 := by
    rw [Platform.wellFormed, Bool.and_eq_true, decide_eq_true_eq, decide_eq_true_eq] at hw
    exact Nat.pow_le_pow_right (by decide) hw.2
  refine xorMemory_shift h.mem (fun o ho => ?_) (fun o ho => ?_) h.keystream_eq
  · rw [h.src_toNat, Nat.mod_eq_of_lt (by omega), Nat.add_assoc]
  · rw [h.dst_toNat, Nat.mod_eq_of_lt (by omega), Nat.add_assoc]

/-- The rest completes, and leaves what the whole leaves. -/
theorem Resumes.completes (h : Resumes s k t) (hw : s.platform.wellFormed = true)
    (hsrc : s.src.toNat + s.len.toNat ≤ 2 ^ s.platform.addrW)
    (hdst : s.dst.toNat + s.len.toNat ≤ 2 ^ s.platform.addrW) (hk : 64 * k ≤ s.len.toNat)
    (hc : s.nc[0].toNat + k ≤ 2 ^ 32 - 1) :
    ∃ v, Completes .xor t v ∧ v.mem = xorMemory s (streamBytes s) ∧
      v.nc = ncAt s.nc (windows (streamBytes s)) ∧ statusWord v = streamStatus s := by
  have hlen := h.len_toNat hk
  have hs := h.src_toNat
  have hd := h.dst_toNat
  obtain ⟨v, hv, hend⟩ := completes_xor h.phase (by rw [h.platform]; omega) (by rw [h.platform]; omega)
  refine ⟨v, hv, ?_, ?_, hend.status.trans (h.streamStatus_eq hk hc)⟩
  · rw [hend.mem, h.xorMemory_eq hw hsrc hdst hk (streamBytes_le_len t), h.streamBytes_eq hk hc]
  · rw [hend.nc, h.nc, ncAt_ncAt, ← windows_add, h.streamBytes_eq hk hc]

/-- The first `k` windows end with DONE, and leave a state that resumes. -/
theorem completes_firstWindows (hp : s.phase = .idle) (hsrc : s.src.toNat + s.len.toNat ≤ 2 ^ s.platform.addrW)
    (hdst : s.dst.toNat + s.len.toNat ≤ 2 ^ s.platform.addrW) (hk : 64 * k ≤ s.len.toNat)
    (hc : s.nc[0].toNat + k ≤ 2 ^ 32 - 1) :
    ∃ u, Completes .xor (firstWindows s k) u ∧ u.done = true ∧ Resumes s k { u with
      src := s.src + BitVec.ofNat 32 (64 * k)
      dst := s.dst + BitVec.ofNat 32 (64 * k)
      len := s.len - BitVec.ofNat 32 (64 * k) } := by
  have hlen := firstWindows_len hk
  have hov := firstWindows_not_overflows hk hc
  have hbytes : streamBytes (firstWindows s k) = 64 * k := (streamBytes_of_not_overflows hov).1.trans hlen
  obtain ⟨u, hu, hend⟩ := completes_xor (s := firstWindows s k) hp
    (by rw [hlen]; exact Nat.le_trans (Nat.add_le_add_left hk _) hsrc)
    (by rw [hlen]; exact Nat.le_trans (Nat.add_le_add_left hk _) hdst)
  obtain ⟨hphase, -⟩ := hend.command.sequencer
  have hnc := hend.nc
  have hmem := hend.mem
  have hwindows : windows (64 * k) = k := windows_add k 0
  rw [hbytes, hwindows] at hnc
  rw [hbytes, xorMemory_firstWindows] at hmem
  exact ⟨u, hu, by rw [hend.done, hov]; rfl, hphase, hend.command.key, hend.command.platform, hnc, hmem, rfl, rfl,
    rfl⟩

end

/-- Settles O19: the first windows end with DONE, and the rest resumes and leaves what the whole leaves. -/
theorem chunkedStreamEqualsWhole : Obligations.ChunkedStreamEqualsWhole := by
  intro s k hw hp hsrc hdst hk hc
  obtain ⟨u, hu, hdone, hrest⟩ := completes_firstWindows hp hsrc hdst hk hc
  obtain ⟨v, hv, hmem, hnc, hstatus⟩ := hrest.completes hw hsrc hdst hk hc
  obtain ⟨w, hwhole, hend⟩ := completes_xor hp hsrc hdst
  exact ⟨u, v, w, hu, hdone, hv, hwhole, hmem.trans hend.mem.symm, hnc.trans hend.nc.symm,
    hstatus.trans hend.status.symm⟩

end Sys2Proof.Machine
end

section
/-! PROOFS. The rejection of a command whose range does not fit (60_exceptions.md R200 to R204). -/

namespace Sys2Proof.Machine

theorem rangeFits_eq_false_iff {s : State} {base n : Nat} :
    rangeFits s base n = false ↔ 2 ^ s.platform.addrW < base + n :=
  decide_eq_false_iff_not.trans Nat.not_le

theorem rangeOk_block_eq_false {s : State} (hdst : 2 ^ s.platform.addrW < s.dst.toNat + 64) :
    rangeOk .block s = false :=
  rangeFits_eq_false_iff.2 hdst

/-- One range past the edge, the input's or the output's, is enough (60_exceptions.md R200). -/
theorem rangeOk_xor_eq_false {s : State} (h : 2 ^ s.platform.addrW < s.src.toNat + s.len.toNat ∨
    2 ^ s.platform.addrW < s.dst.toNat + s.len.toNat) : rangeOk .xor s = false :=
  Bool.and_eq_false_iff.2 (h.imp rangeFits_eq_false_iff.2 rangeFits_eq_false_iff.2)

theorem rangeOk_kstream_eq_false {s : State} (hdst : 2 ^ s.platform.addrW < s.dst.toNat + s.len.toNat) :
    rangeOk .kstream s = false :=
  rangeFits_eq_false_iff.2 hdst

/-- STATUS after a RANGE rejection: ERR, and ECODE = 2 (60_exceptions.md R201). -/
theorem statusWord_rejectedRange {s : State} (hp : s.phase = .idle) :
    statusWord { s with
      done := false, err := true, ovf := false, ign := false, ecode := .range, bytes := 0 } = 0x00000204 := by
  rw [statusWord_idle (by exact hp) rfl]
  simp [ErrorCode.code]

/-- Settles O9: each range past the edge fails its command's check, and a failed check is a rejection. -/
theorem rangeRejected : Obligations.RangeRejected := by
  intro s i hp h
  have hrange : rangeOk i s = false := by
    rcases h with ⟨rfl, hdst⟩ | ⟨rfl, hranges⟩ | ⟨rfl, hdst⟩
    · exact rangeOk_block_eq_false hdst
    · exact rangeOk_xor_eq_false hranges
    · exact rangeOk_kstream_eq_false hdst
  exact ⟨_, exec_rejected hp hrange, statusWord_rejectedRange hp, rfl⟩

end Sys2Proof.Machine
end
